-- ==== Sys2Proof/Word.lean ====
section
/-!
DEFINITION. The word of the host registers and the three small alphabets of the data model
(spec/00_scope.md R13, spec/10_state.md R17, spec/20_memory.md R36, R37).
-/

namespace Sys2Proof

/-- A host register's value: 32 bits, unsigned unless a rule says otherwise (R9, R17). -/
abbrev Word := BitVec 32

/-- A binary symbol (R13, R36). -/
inductive Symbol where
  | zero
  | one
  deriving DecidableEq, Repr

/-- A sign: the two nonzero pulse levels, which is what the transient registers `level`, `prevLevel`,
`lastPolarity` and `prev` and the sign parameters hold (R7, R30). -/
inductive Polarity where
  | low
  | high
  deriving DecidableEq, Repr

/-- A pulse level: HIGH = +1, LOW = -1, NEUTRAL = 0 (R13). -/
inductive Level where
  | neutral
  | high
  | low
  deriving DecidableEq, Repr

/-- `neg` on the two nonzero levels (R9). -/
def Polarity.neg : Polarity → Polarity
  | .low => .high
  | .high => .low

/-- A nonzero pulse of the given sign (R13). -/
def Polarity.level : Polarity → Level
  | .low => .low
  | .high => .high

/-- `neg` on levels: the level of value `-p` (R9). -/
def Level.neg : Level → Level
  | .neutral => .neutral
  | .high => .low
  | .low => .high

/-- The level's value in {-1, 0, +1} (R9, R13). -/
def Level.value : Level → Int
  | .neutral => 0
  | .high => 1
  | .low => -1

end Sys2Proof
end

