-- ==== Sys2Proof/Config.lean ====
section
/-!
DEFINITION. The implementation parameters of spec/00_scope.md R7, and the open values of the spec:
capacities at reset (D9) and the length register of an output too long for 32 bits.
-/

namespace Sys2Proof

/-- The sign rule of HDB3's even-parity substitution, parameter `HDB3_EVEN_SIGN` (R7, D15). -/
inductive EvenSign where
  | opposite
  | same
  deriving DecidableEq, Repr

/-- The parameters of R7. They are fixed for one block; the state carries them as a constant, since the
step's type has no other place for a parameter (log entry 1). -/
structure Config where
  /-- `N_MAX`: capacity of SYM in symbols. -/
  nMax : Nat
  /-- `S_MAX`: capacity of SMP in samples. -/
  sMax : Nat
  /-- `MAX_BPS`: the largest `bitsPerSample` PCM accepts (D10). -/
  maxBps : Nat
  /-- `DMAN_INIT`: initial `prevLevel` of Differential Manchester (D12). -/
  dmanInit : Polarity
  /-- `B8ZS_FIRST_SIGN`: sign of the first B8ZS substitution of a pass (D13). -/
  b8zsFirstSign : Polarity
  /-- `HDB3_EVEN_SIGN`: sign rule of the even-parity substitution (D15). -/
  hdb3EvenSign : EvenSign
  deriving DecidableEq, Repr

/-- `P_MAX = 2 * N_MAX`: capacity of PUL in pulse slots (R7, R35). -/
def Config.pMax (c : Config) : Nat := 2 * c.nMax

/-- Free value: by how much the reset block's `N_MAX` exceeds 64. No source gives `N_MAX` (R7, D9); the
spec's test vectors assume at least 64 (DESIGN CHOICE, log entry 2). -/
opaque Config.spareSymbols : Nat

/-- Free value: by how much the reset block's `S_MAX` exceeds 16 (R7, D9; DESIGN CHOICE, log entry 2). -/
opaque Config.spareSamples : Nat

/-- Free value: what a 32-bit length register holds after a command whose output is `2^32` elements or
more, a length the register cannot hold and for which the spec states no value (DESIGN CHOICE, log
entry 10). The argument is the output's exact length. -/
opaque Config.overlongLength : Nat → Word

/-- Free value: what `ldsym`, `ldsmp` or `ldpul` writes to its length register for `2^32` elements or more, a
number that the 32-bit operand of `wr` cannot hold and for which R61 states no value (DESIGN CHOICE, log
entry 20). The argument is the number of elements. -/
opaque Config.overlongCount : Nat → Word

/-- Free value: `floor` of a NaN or an infinity, which R12 does not give and no rule takes (R75; DESIGN
CHOICE, log entry 16). -/
opaque Config.nonfiniteFloor : Int

end Sys2Proof
end

