-- ==== Sys2Proof/Syntax.lean ====
section
/-!
DEFINITION. The instructions: the nine legal command words of spec/opcode_table.json
(spec/30_encoding.md R52 to R55). A command word holds no operand (R56), so no constructor has one.
-/

namespace Sys2Proof

/-- One constructor per row of the opcode table. -/
inductive Instr where
  /-- `enc.nrzl`: LINE_ENCODE, scheme NRZ_L (R63). -/
  | encNrzl
  /-- `enc.nrzi`: LINE_ENCODE, scheme NRZ_I (R64). -/
  | encNrzi
  /-- `enc.man`: LINE_ENCODE, scheme MANCHESTER (R65). -/
  | encMan
  /-- `enc.dman`: LINE_ENCODE, scheme DIFF_MANCHESTER (R66). -/
  | encDman
  /-- `enc.ami`: LINE_ENCODE, scheme AMI (R67). -/
  | encAmi
  /-- `scr.b8zs`: SCRAMBLE, scheme B8ZS (R70). -/
  | scrB8zs
  /-- `scr.hdb3`: SCRAMBLE, scheme HDB3 (R71). -/
  | scrHdb3
  /-- `pcm`: PCM_ENCODE (R74). -/
  | pcm
  /-- `dm`: DM_ENCODE (R77). -/
  | dm
  deriving DecidableEq, Repr

end Sys2Proof
end

