-- ==== Sys2Proof/WellFormed.lean ====
section
/-!
DEFINITION. Well-formedness of instructions and of the configuration. An instruction has no operand
(spec/30_encoding.md R56), so nothing of it can be ill-formed; the configuration has the constraints of
spec/00_scope.md R7. What the host owes in its own actions is `HostAction.wf`, in Machine/HostAccess.lean,
beside the accesses it is about.
-/

namespace Sys2Proof

/-- Every instruction is well-formed: the command word has no operand to check (R56). -/
def Instr.wf : Instr → Bool
  | .encNrzl => true
  | .encNrzi => true
  | .encMan => true
  | .encDman => true
  | .encAmi => true
  | .scrB8zs => true
  | .scrHdb3 => true
  | .pcm => true
  | .dm => true

/-- The constraints of R7: `N_MAX >= 1`, `S_MAX >= 1` and `1 <= MAX_BPS <= 32`. (`P_MAX = 2 * N_MAX` holds
by definition.) -/
def Config.wf (c : Config) : Bool :=
  decide (1 ≤ c.nMax) && decide (1 ≤ c.sMax) && decide (1 ≤ c.maxBps) && decide (c.maxBps ≤ 32)

end Sys2Proof
end

