-- ==== Sys2Proof/Decode.lean ====
section
/-!
DEFINITION. Decoding a command word, total on all 32-bit words and rejecting by name
(spec/30_encoding.md R51 to R59), and encoding an instruction, from the tables of R52 to R55.
-/

namespace Sys2Proof

/-- Why a word selects no command: `Illegal(c)` of R57. -/
inductive Illegal where
  /-- RSVD is not zero, or OP is not in 0x1 to 0x4. -/
  | badOpcode
  /-- SCHEME is not legal for OP. -/
  | badScheme
  deriving DecidableEq, Repr

/-- The field OP = CMD[3:0] (R51). -/
def opField (w : Word) : BitVec 4 := w.extractLsb' 0 4

/-- The field SCHEME = CMD[7:4] (R51). -/
def schemeField (w : Word) : BitVec 4 := w.extractLsb' 4 4

/-- The field RSVD = CMD[31:8] (R51). -/
def rsvdField (w : Word) : BitVec 24 := w.extractLsb' 8 24

/-- SCHEME of a LINE_ENCODE word (R53). -/
def decodeLineScheme (scheme : Nat) : Except Illegal Instr :=
  match scheme with
  | 0x0 => .ok .encNrzl
  | 0x1 => .ok .encNrzi
  | 0x2 => .ok .encMan
  | 0x3 => .ok .encDman
  | 0x4 => .ok .encAmi
  | _ => .error .badScheme

/-- SCHEME of a SCRAMBLE word (R54). -/
def decodeScrambleScheme (scheme : Nat) : Except Illegal Instr :=
  match scheme with
  | 0x0 => .ok .scrB8zs
  | 0x1 => .ok .scrHdb3
  | _ => .error .badScheme

/-- The decode of a command word (R57); RSVD is tested first. -/
def decode (w : Word) : Except Illegal Instr :=
  if rsvdField w ≠ 0#24 then .error .badOpcode
  else
    match (opField w).toNat with
    | 0x1 => decodeLineScheme (schemeField w).toNat
    | 0x2 => decodeScrambleScheme (schemeField w).toNat
    | 0x3 => if schemeField w = 0#4 then .ok .pcm else .error .badScheme
    | 0x4 => if schemeField w = 0#4 then .ok .dm else .error .badScheme
    | _ => .error .badOpcode

/-- OP of an instruction (R52). -/
def opCode : Instr → BitVec 4
  | .encNrzl => 0x1#4
  | .encNrzi => 0x1#4
  | .encMan => 0x1#4
  | .encDman => 0x1#4
  | .encAmi => 0x1#4
  | .scrB8zs => 0x2#4
  | .scrHdb3 => 0x2#4
  | .pcm => 0x3#4
  | .dm => 0x4#4

/-- SCHEME of an instruction (R53, R54, R55). -/
def schemeCode : Instr → BitVec 4
  | .encNrzl => 0x0#4
  | .encNrzi => 0x1#4
  | .encMan => 0x2#4
  | .encDman => 0x3#4
  | .encAmi => 0x4#4
  | .scrB8zs => 0x0#4
  | .scrHdb3 => 0x1#4
  | .pcm => 0x0#4
  | .dm => 0x0#4

/-- The command word of an instruction: RSVD = 0, then SCHEME, then OP (R51). -/
def encode (i : Instr) : Word := (0#24 ++ schemeCode i) ++ opCode i

/-- The 32-bit word whose low `nbits` bits are those of `w`, every bit above them zero. A command word is
one 32-bit register write, bit 0 the least significant (R9, R59), which is also how spec/opcode_table.json
numbers its bits; no byte order arises (R44). -/
def tableWord (nbits w : Nat) : Word := BitVec.ofNat 32 (w % 2 ^ nbits)

/-- What the decoder reads from an opcode-table word of `nbits` bits. -/
def decodeTableWord (nbits w : Nat) : Option Instr :=
  match decode (tableWord nbits w) with
  | .ok i => some i
  | .error _ => none

end Sys2Proof
end

