-- ==== Sys2Proof/Machine/Params.lean ====
section
/-!
DEFINITION. The parameter values of the block that `State.reset` describes: the spec's defaults
(spec/00_scope.md R7), with the capacities left open above the sizes its test vectors assume
(log entries 2 and 3).
-/

namespace Sys2Proof.Machine

/-- The configuration of the reset block: MAX_BPS = 32, DMAN_INIT = LOW, B8ZS_FIRST_SIGN = HIGH,
HDB3_EVEN_SIGN = OPPOSITE (R7's defaults, log entry 3); N_MAX at least 64 and S_MAX at least 16, otherwise
open (log entry 2). -/
def resetConfig : Config where
  nMax := Config.spareSymbols + 64
  sMax := Config.spareSamples + 16
  maxBps := 32
  dmanInit := .low
  b8zsFirstSign := .high
  hdb3EvenSign := .opposite

end Sys2Proof.Machine
end

