-- ==== Sys2Proof/Machine/State.lean ====
section
/-!
DEFINITION. The state of the block (spec/10_state.md R17, R32, R33; spec/20_memory.md R35, R39), the host's
side of it (spec/70_reset_and_hazards.md R99), the reasons a step stops, and the state after reset (R34, R95).
-/

namespace Sys2Proof.Machine

/-- A buffer of `w`-bit elements: the elements that hold a value, as (index, value) pairs with strictly
rising indices. An index that is not listed is UNDEF (R33, R39). The spec's buffers are element-addressed
and none is byte-addressed (R35), so an element and not a byte is the unit (log entry 9). -/
abbrev Memory (w : Nat) := List (Nat × BitVec w)

/-- The reason of a model fault (R85). -/
inductive HostFault where
  /-- A command's input element, or an element the host reads, was never written (R39). -/
  | undefRead
  /-- Host access to a register number at or above 7 (R27). -/
  | badRegister
  /-- Host write to STATUS or ERRCAUSE (R28). -/
  | writeRo
  /-- Host access to a buffer index at or above its capacity (R40). -/
  | indexRange
  /-- Host access other than a STATUS read while STATE = BUSY (R100). -/
  | busyAccess
  deriving DecidableEq, Repr

/-- The cause of an InvalidInput; its code is `Cause.code` of Machine/Flags.lean (R80). -/
inductive Cause where
  | badOpcode
  | badScheme
  | capacity
  | emptyInput
  | badBps
  | nonfiniteSample
  | degenerateRange
  | rangeNotRepresentable
  | lengthMismatch
  | notAmi
  deriving DecidableEq, Repr

/-- What the host may do (R60, R99). A register is named by its number, so that an unmapped number can be
named too (R27); an element by its index. `wr` of register 0 is a `cmd` (R60). -/
inductive HostAction where
  /-- `cmd 0x…`: write a command word to CMD. -/
  | cmd (w : Word)
  /-- `wr REG, v`: write a register. -/
  | wr (reg : Nat) (v : Word)
  /-- `rd REG`: read a register. -/
  | rd (reg : Nat)
  /-- `st SYM[i], b`. -/
  | stSym (i : Nat) (b : BitVec 1)
  /-- `st PUL[i], code`. -/
  | stPul (i : Nat) (code : BitVec 2)
  /-- `st SMP[i], f64`, the value as its 64-bit pattern. -/
  | stSmp (i : Nat) (x : BitVec 64)
  /-- `ld SYM[i]`. -/
  | ldSym (i : Nat)
  /-- `ld PUL[i]`. -/
  | ldPul (i : Nat)
  /-- `ld SMP[i]`. -/
  | ldSmp (i : Nat)
  /-- Reset the block (R95, R99). -/
  | reset
  deriving DecidableEq, Repr

/-- What a host read gives back (R99). -/
inductive HostReply where
  | register (v : Word)
  | symbol (b : BitVec 1)
  | pulse (code : BitVec 2)
  | sample (x : BitVec 64)
  deriving DecidableEq, Repr

/-- The state of the block, with the host's side. -/
structure State where
  /-- The parameters of R7, a constant (log entry 1). -/
  cfg : Config
  /-- CMD (R20). -/
  cmd : Word
  /-- STATUS.STATE, bits 1:0 of STATUS; bits 31:2 read as zero (R21, log entry 7). -/
  status : BitVec 2
  /-- ERRCAUSE.CAUSE, bits 7:0 of ERRCAUSE; bits 31:8 read as zero (R22, log entry 7). -/
  errCause : BitVec 8
  /-- SYM_LEN (R23). -/
  symLen : Word
  /-- PUL_LEN (R24). -/
  pulLen : Word
  /-- SMP_LEN (R25). -/
  smpLen : Word
  /-- BPS (R26). -/
  bps : Word
  /-- SYM: symbols (R35, R36). -/
  sym : Memory 1
  /-- PUL: pulse level codes (R35, R37). -/
  pul : Memory 2
  /-- SMP: binary64 samples (R35, R38). -/
  smp : Memory 64
  /-- FAULT (R32). -/
  fault : Option HostFault
  /-- The host actions still to come, the next one first (log entry 4). -/
  host : List HostAction
  /-- What host reads have given back, the latest first (log entry 4). -/
  got : List HostReply
  deriving DecidableEq, Repr

/-- Why the machine stops. -/
inductive Fault where
  /-- Raised by `step` in a state whose FAULT is set: no later step of the block is taken (R32, R85). Safe:
  the model has no run where hardware might have one. -/
  | hostFault (reason : HostFault)
  deriving DecidableEq, Repr

/-- Why the machine has no meaning for an instruction. -/
inductive Refusal where
  /-- Raised by an arm of `exec` whose instruction has no meaning yet; no arm is such. Safe. -/
  | notModelled (mnemonic : String)
  deriving DecidableEq, Repr

/-- The block with parameters `c` right after reset, with no host action to come (R34, R95). -/
def State.resetWith (c : Config) : State where
  cfg := c
  cmd := 0x00000000#32
  status := 0#2
  errCause := 0#8
  symLen := 0#32
  pulLen := 0#32
  smpLen := 0#32
  bps := 0#32
  sym := []
  pul := []
  smp := []
  fault := none
  host := []
  got := []

/-- The machine right after reset (R34, R95). -/
def State.reset : State := State.resetWith resetConfig

end Sys2Proof.Machine
end

