-- ==== Sys2Proof/Machine/Float64.lean ====
section
/-!
DEFINITION. IEEE 754 binary64, as spec/00_scope.md R12 and spec/42_analog_modulate.md R75 use it: the value
of a 64-bit pattern, and `fadd`, `fsub`, `fdiv` with round-to-nearest, ties-to-even, `flt`, `fgt`, `feq`,
`isFinite` and `floor`. Every finite binary64 value is an integer multiple of 2^-1074, so a finite value is
held as a sign and a natural number of such units and all arithmetic before rounding is exact. The spec
marks these facts as general knowledge (93_implementation_defined.md G1 to G4); what it leaves to IEEE 754
(signed zeros, infinities, NaN) is PRESUMED from that standard (log entry 15).
-/

namespace Sys2Proof.Machine

/-- A binary64 value. `fin neg mag` is `(-1)^neg * mag * 2^-1074`; a NaN's payload is read by no rule. -/
inductive F64 where
  | nan
  | inf (neg : Bool)
  | fin (neg : Bool) (mag : Nat)
  deriving DecidableEq, Repr

namespace F64

/-- The number of units in 1.0. -/
def one : Nat := 2 ^ 1074

/-- The first magnitude, in units, above every finite binary64 value: 2^1024. -/
def overflow : Nat := 2 ^ 2098

/-- The value of a bit pattern (R38): sign bit 63, biased exponent bits 62:52, fraction bits 51:0. -/
def ofBits (x : BitVec 64) : F64 :=
  let neg := x.getLsbD 63
  let e := (x.extractLsb' 52 11).toNat
  let f := (x.extractLsb' 0 52).toNat
  if e = 2047 then (if f = 0 then .inf neg else .nan)
  else if e = 0 then .fin neg f
  else .fin neg ((2 ^ 52 + f) * 2 ^ (e - 1))

/-- A natural number as a binary64 value; exact for the powers of two it is used on (R75). -/
def ofNat (n : Nat) : F64 := .fin false (n * one)

/-- A finite value in units, with its sign. -/
def units : F64 → Int
  | .nan => 0
  | .inf _ => 0
  | .fin neg mag => if neg then -(mag : Int) else (mag : Int)

/-- `isFinite(a)` (R12). -/
def isFinite : F64 → Bool
  | .nan => false
  | .inf _ => false
  | .fin _ _ => true

/-- `num / den` rounded to the nearest natural number, a tie to the even one. -/
def nearestEven (num den : Nat) : Nat :=
  let k := num / den
  let r := num % den
  if 2 * r > den ∨ (2 * r = den ∧ k % 2 = 1) then k + 1 else k

/-- The exponent of the unit in the last place of a value of `num / den` units: 53 significant bits, and
never below one unit. -/
def ulpExp (num den : Nat) : Nat := Nat.log2 (num / den) - 52

/-- The binary64 value nearest to `(-1)^neg * (num / den)` units, a tie to the even significand, infinity
when the rounded magnitude is 2^1024 or more (R12). -/
def round (neg : Bool) (num den : Nat) : F64 :=
  let e := ulpExp num den
  let mag := nearestEven num (den * 2 ^ e) * 2 ^ e
  if mag ≥ overflow then .inf neg else .fin neg mag

/-- `-a`. -/
def neg : F64 → F64
  | .nan => .nan
  | .inf s => .inf (!s)
  | .fin s mag => .fin (!s) mag

/-- `fadd(a, b)` (R12). An exact zero sum is -0.0 only when both operands are negative zeros. -/
def fadd : F64 → F64 → F64
  | .nan, _ => .nan
  | .inf _, .nan => .nan
  | .inf s, .inf t => if s = t then .inf s else .nan
  | .inf s, .fin _ _ => .inf s
  | .fin _ _, .nan => .nan
  | .fin _ _, .inf t => .inf t
  | .fin s a, .fin t b =>
    let n := units (.fin s a) + units (.fin t b)
    if n = 0 then .fin (s && t) 0 else round (decide (n < 0)) n.natAbs 1

/-- `fsub(a, b)` (R12). -/
def fsub (a b : F64) : F64 := fadd a (neg b)

/-- `fdiv(a, b)` (R12). -/
def fdiv : F64 → F64 → F64
  | .nan, _ => .nan
  | .inf _, .nan => .nan
  | .inf _, .inf _ => .nan
  | .inf s, .fin t _ => .inf (s != t)
  | .fin _ _, .nan => .nan
  | .fin s _, .inf t => .fin (s != t) 0
  | .fin s a, .fin t b =>
    if b = 0 then (if a = 0 then .nan else .inf (s != t)) else round (s != t) (a * one) b

/-- `flt(a, b)`: the ordered comparison `a < b`, false when either operand is NaN (R12). -/
def flt : F64 → F64 → Bool
  | .nan, _ => false
  | .inf _, .nan => false
  | .inf s, .inf t => s && !t
  | .inf s, .fin _ _ => s
  | .fin _ _, .nan => false
  | .fin _ _, .inf t => !t
  | .fin s a, .fin t b => decide (units (.fin s a) < units (.fin t b))

/-- `fgt(a, b)` is `b < a` (R12). -/
def fgt (a b : F64) : Bool := flt b a

/-- `feq(a, b)`: equal values, true of +0.0 and -0.0, false when either operand is NaN (R12). -/
def feq : F64 → F64 → Bool
  | .nan, _ => false
  | .inf _, .nan => false
  | .inf s, .inf t => s == t
  | .inf _, .fin _ _ => false
  | .fin _ _, .nan => false
  | .fin _ _, .inf _ => false
  | .fin s a, .fin t b => decide (units (.fin s a) = units (.fin t b))

/-- `floor(a)` of a finite value: the largest integer not above it (R12). R12 gives no floor of a
non-finite value and no rule takes one (R75), so a free value stands there (log entry 16). -/
def floor : F64 → Int
  | .nan => Config.nonfiniteFloor
  | .inf _ => Config.nonfiniteFloor
  | .fin neg mag => units (.fin neg mag) / (one : Int)

/-- The bit pattern of a value (R38). A NaN has many and no rule picks one, so it has none here. -/
def toBits : F64 → Option (BitVec 64)
  | .nan => none
  | .inf neg => some (BitVec.ofBool neg ++ 2047#11 ++ 0#52)
  | .fin neg mag =>
    let k := Nat.log2 mag - 52
    some (if mag < 2 ^ 52 then BitVec.ofBool neg ++ 0#11 ++ BitVec.ofNat 52 mag
      else BitVec.ofBool neg ++ BitVec.ofNat 11 (k + 1) ++ BitVec.ofNat 52 (mag / 2 ^ k))

/-- The value of the decimal literal `(-1)^neg * digits * 10^scale`: the nearest binary64 value (R60). For a
tie and for a literal above every finite value, R12's rounding is presumed, and so is IEEE 754's sign of a
zero: a literal that is zero or rounds to zero keeps its own sign (log entry 18). -/
def ofDecimal (neg : Bool) (digits : Nat) (scale : Int) : F64 :=
  if 0 ≤ scale then round neg (digits * 10 ^ scale.toNat * one) 1
  else round neg (digits * one) (10 ^ (-scale).toNat)

end F64

end Sys2Proof.Machine
end

