-- ==== Sys2Proof/Machine/Flags.lean ====
section
/-!
DEFINITION. The condition state: STATUS.STATE and ERRCAUSE.CAUSE, their codes and the words the host reads
(spec/10_state.md R21, R22, R29; spec/60_exceptions.md R80). The block has no arithmetic flags (R29).
-/

namespace Sys2Proof.Machine

/-- STATE = IDLE (R21). -/
def stateIdle : BitVec 2 := 0#2

/-- STATE = BUSY (R21). -/
def stateBusy : BitVec 2 := 1#2

/-- STATE = DONE (R21). -/
def stateDone : BitVec 2 := 2#2

/-- STATE = ERROR (R21). -/
def stateError : BitVec 2 := 3#2

/-- CAUSE = NONE (R22, R80). -/
def causeNone : BitVec 8 := 0#8

/-- The cause codes of R80. -/
def Cause.code : Cause → BitVec 8
  | .badOpcode => 1#8
  | .badScheme => 2#8
  | .capacity => 3#8
  | .emptyInput => 4#8
  | .badBps => 5#8
  | .nonfiniteSample => 6#8
  | .degenerateRange => 7#8
  | .rangeNotRepresentable => 8#8
  | .lengthMismatch => 9#8
  | .notAmi => 10#8

/-- The cause that an illegal word reports (R57, R80). -/
def illegalCause : Illegal → Cause
  | .badOpcode => .badOpcode
  | .badScheme => .badScheme

/-- The word read from STATUS: STATE in bits 1:0, zeros above (R21). -/
def State.statusWord (s : State) : Word := s.status.setWidth 32

/-- The word read from ERRCAUSE: CAUSE in bits 7:0, zeros above (R22). -/
def State.errCauseWord (s : State) : Word := s.errCause.setWidth 32

end Sys2Proof.Machine
end

