-- ==== Sys2Proof/Machine/Ops.lean ====
section
/-!
DEFINITION. The shared operations: elements of a buffer (spec/20_memory.md R39, R40), writing a length
register, the ways a command ends (spec/60_exceptions.md R82, R83, R85) and the reset (R95).
-/

namespace Sys2Proof.Machine

/-- `MemRead(buf, i)`: the element at an index, `none` when it is UNDEF (R11, R39). -/
def Memory.read {w : Nat} (m : Memory w) (i : Nat) : Option (BitVec w) :=
  match m with
  | [] => none
  | (j, v) :: rest => if j = i then some v else Memory.read rest i

/-- `MemWrite(buf, i, v)`: the whole element is stored (R11, R40); indices stay strictly rising. -/
def Memory.write {w : Nat} (m : Memory w) (i : Nat) (v : BitVec w) : Memory w :=
  match m with
  | [] => [(i, v)]
  | (j, u) :: rest =>
    if i < j then (i, v) :: (j, u) :: rest
    else if i = j then (i, v) :: rest
    else (j, u) :: Memory.write rest i v

/-- Every listed index is at least `lo` and the indices rise strictly. -/
def Memory.risingFrom {w : Nat} (lo : Nat) (m : Memory w) : Bool :=
  match m with
  | [] => true
  | (j, _) :: rest => decide (lo ≤ j) && Memory.risingFrom (j + 1) rest

/-- The canonical form: indices rise strictly. No entry can equal what an unlisted index reads as, since
that is UNDEF and every entry holds a value (R39). -/
def Memory.wf {w : Nat} (m : Memory w) : Bool := Memory.risingFrom 0 m

/-- Every listed index is below the buffer's capacity (R35, R40). -/
def Memory.within {w : Nat} (cap : Nat) (m : Memory w) : Bool := m.all (fun e => decide (e.1 < cap))

/-- The `n` elements from index `start` on, `none` when one of them is UNDEF (R39). -/
def Memory.readFrom {w : Nat} (m : Memory w) (start : Nat) : Nat → Option (List (BitVec w))
  | 0 => some []
  | n + 1 =>
    match m.read start, Memory.readFrom m (start + 1) n with
    | some x, some xs => some (x :: xs)
    | _, _ => none

/-- Write the elements of a list one after another from index `start` on. -/
def Memory.writeFrom {w : Nat} (m : Memory w) (start : Nat) : List (BitVec w) → Memory w
  | [] => m
  | x :: xs => Memory.writeFrom (m.write start x) (start + 1) xs

/-- The value a length register gets for an output of `n` elements: `n`, or a free value when 32 bits
cannot hold `n` (R23, R24; log entry 10). -/
def lengthWord (n : Nat) : Word :=
  if n < 2 ^ 32 then BitVec.ofNat 32 n else Config.overlongLength n

/-- `raise InvalidInput(c)`: taking the hardware's one exception. STATE <- ERROR and CAUSE <- c, and
nothing else; no state is saved and no handler is entered (R82, R87). -/
def State.raiseInvalid (c : Cause) (s : State) : State :=
  { s with status := stateError, errCause := c.code }

/-- `complete`: STATE <- DONE and CAUSE <- NONE (R83). -/
def State.complete (s : State) : State :=
  { s with status := stateDone, errCause := causeNone }

/-- `fault HostFault(reason)`: FAULT is set and nothing else (R85). -/
def State.hostFault (r : HostFault) (s : State) : State := { s with fault := some r }

/-- The reset of R95, as a host action inside a run: every piece of the block's state at its reset value.
The parameters are no state (R17), and the host keeps its own list of actions and replies. -/
def State.resetBlock (s : State) : State :=
  { State.resetWith s.cfg with host := s.host, got := s.got }

/-- Why a command does not complete: an InvalidInput (R82) or a model fault (R85). -/
inductive Stop where
  | invalid (c : Cause)
  | fault (r : HostFault)
  deriving DecidableEq, Repr

/-- The end of every command started in state `s`: with `.ok t`, `t` holds its outputs and it completes
(R83); with `.error`, it ends by R82 or R85 and has written no output (R42, R84). -/
def endCommand (s : State) : Except Stop State → Host.Outcome State Fault Refusal
  | .ok t => .next t.complete
  | .error (.invalid c) => .next (s.raiseInvalid c)
  | .error (.fault r) => .next (s.hostFault r)

end Sys2Proof.Machine
end

