-- ==== Sys2Proof/Machine/Operands.lean ====
section
/-!
DEFINITION. The operands of the commands: the element encodings (spec/20_memory.md R36, R37), what each
operation reads, with its checks in the order of spec/60_exceptions.md R81, and where it writes (R41).
-/

namespace Sys2Proof.Machine

/-- A SYM element as a symbol: 0 = ZERO, 1 = ONE (R36). -/
def symbolOf (b : BitVec 1) : Symbol := if b = 1#1 then .one else .zero

/-- A symbol as a SYM element (R36). -/
def symbolBit : Symbol → BitVec 1
  | .zero => 0#1
  | .one => 1#1

/-- `enc(level)`: the level's 2-bit code (R37). -/
def levelCode : Level → BitVec 2
  | .neutral => 0b00#2
  | .high => 0b01#2
  | .low => 0b11#2

/-- `lvl(code)`: the level of a code; the reserved code 2'b10 has none (R37). -/
def levelOf (c : BitVec 2) : Option Level :=
  if c = 0b00#2 then some .neutral
  else if c = 0b01#2 then some .high
  else if c = 0b11#2 then some .low
  else none

/-- The symbols SYM[0..n-1], `none` when one is UNDEF. -/
def State.symbols (s : State) (n : Nat) : Option (List Symbol) :=
  (s.sym.readFrom 0 n).map (fun bits => bits.map symbolOf)

/-- LINE_ENCODE's input, with steps 3, 4 and 7 of R81 (R62). -/
def lineInput (s : State) : Except Stop (List Symbol) :=
  let n := s.symLen.toNat
  if n > s.cfg.nMax then .error (.invalid .capacity)
  else if n = 0 then .error (.invalid .emptyInput)
  else
    match s.symbols n with
    | none => .error (.fault .undefRead)
    | some syms => .ok syms

/-- The pulse codes of a train. -/
def trainCodes (train : List Level) : List (BitVec 2) := train.map levelCode

/-- LINE_ENCODE's output: PUL[0..m-1] and PUL_LEN <- m (R62). -/
def State.putTrain (s : State) (train : List Level) : State :=
  { s with pul := s.pul.writeFrom 0 (trainCodes train), pulLen := lengthWord train.length }

/-- SCRAMBLE's output: PUL[0..n-1] in place; PUL_LEN is not written (R69). -/
def State.rewriteTrain (s : State) (train : List Level) : State :=
  { s with pul := s.pul.writeFrom 0 (trainCodes train) }

/-- SCRAMBLE's input, with steps 3, 4, 5, 7 and 8 of R81 (R69). `ref` gives the reference train, which is
AMI (R67); codes are compared, so the reserved code matches none. -/
def scrambleInput (ref : List Symbol → List Level) (s : State) : Except Stop (List Symbol) :=
  let n := s.symLen.toNat
  let m := s.pulLen.toNat
  if n > s.cfg.nMax ∨ m > s.cfg.pMax then .error (.invalid .capacity)
  else if n = 0 then .error (.invalid .emptyInput)
  else if m ≠ n then .error (.invalid .lengthMismatch)
  else
    match s.symbols n, s.pul.readFrom 0 n with
    | some syms, some codes =>
      if codes = trainCodes (ref syms) then .ok syms else .error (.invalid .notAmi)
    | _, _ => .error (.fault .undefRead)

/-- PCM_ENCODE's sample patterns, with steps 3 to 7 of R81 (R74). -/
def pcmInput (s : State) : Except Stop (List (BitVec 64)) :=
  let k := s.smpLen.toNat
  let b := s.bps.toNat
  if k > s.cfg.sMax then .error (.invalid .capacity)
  else if k = 0 then .error (.invalid .emptyInput)
  else if b = 0 ∨ b > s.cfg.maxBps then .error (.invalid .badBps)
  else if k * b > s.cfg.nMax then .error (.invalid .capacity)
  else
    match s.smp.readFrom 0 k with
    | none => .error (.fault .undefRead)
    | some xs => .ok xs

/-- DM_ENCODE's sample patterns, with steps 3 and 7 of R81 (R77). -/
def dmInput (s : State) : Except Stop (List (BitVec 64)) :=
  let k := s.smpLen.toNat
  if k > s.cfg.sMax ∨ k > s.cfg.nMax then .error (.invalid .capacity)
  else
    match s.smp.readFrom 0 k with
    | none => .error (.fault .undefRead)
    | some xs => .ok xs

/-- PCM_ENCODE's and DM_ENCODE's output: SYM[0..] and SYM_LEN (R74, R77). -/
def State.putSymbols (s : State) (syms : List Symbol) : State :=
  { s with sym := s.sym.writeFrom 0 (syms.map symbolBit), symLen := lengthWord syms.length }

end Sys2Proof.Machine
end

