-- ==== Sys2Proof/Machine/AnalogModulate.lean ====
section
/-!
DEFINITION. The analog modulation family (spec/42_analog_modulate.md R74 to R77): PCM_ENCODE and DM_ENCODE.
-/

namespace Sys2Proof.Machine

/-- The least of `x` and the samples of a list (R74). The one seen first stays among equal values, +0.0 and
-0.0 among them; no result depends on which (93_implementation_defined.md row 25, log entry 13). -/
def least (x : F64) (xs : List F64) : F64 := xs.foldl (fun m y => if F64.flt y m then y else m) x

/-- The greatest of `x` and the samples of a list (R74). -/
def greatest (x : F64) (xs : List F64) : F64 := xs.foldl (fun m y => if F64.fgt y m then y else m) x

/-- `step <- fdiv(fsub(mx, mn), levels)` with `levels = 2^b` (R74, R75). -/
def pcmStep (mn mx : F64) (b : Nat) : F64 := F64.fdiv (F64.fsub mx mn) (F64.ofNat (2 ^ b))

/-- The level index `q` of a sample: `floor(fdiv(fsub(x, mn), step))`, clamped to `levels - 1` (R74). -/
def pcmIndex (mn step : F64) (b : Nat) (x : F64) : Nat :=
  min (F64.floor (F64.fdiv (F64.fsub x mn) step)).toNat (2 ^ b - 1)

/-- The `b` symbols of an index, bit `b-1-t` at place `t`: most significant first (R74). -/
def indexSymbols (b q : Nat) : List Symbol :=
  (List.range b).map (fun t => if q.testBit (b - 1 - t) then Symbol.one else Symbol.zero)

/-- The symbols PCM_ENCODE makes of its samples, with steps 8, 9 and 10 of R81 (R74). -/
def pcmSymbols (b : Nat) : List F64 → Except Stop (List Symbol)
  | [] => .error (.invalid .emptyInput)
  | x :: xs =>
    if (x :: xs).any (fun y => !y.isFinite) then .error (.invalid .nonfiniteSample)
    else
      let mn := least x xs
      let mx := greatest x xs
      if F64.feq mx mn then .error (.invalid .degenerateRange)
      else
        let step := pcmStep mn mx b
        if !step.isFinite || F64.feq step (.fin false 0) then .error (.invalid .rangeNotRepresentable)
        else .ok ((x :: xs).flatMap (fun y => indexSymbols b (pcmIndex mn step b y)))

/-- What PCM_ENCODE does before it completes: the symbols in order of their checks, then the writes. -/
def pcmResult (s : State) : Except Stop State :=
  match pcmInput s with
  | .error e => .error e
  | .ok xs => (pcmSymbols s.bps.toNat (xs.map F64.ofBits)).map (fun syms => s.putSymbols syms)

/-- `pcm` (R74). -/
def execPcm (s : State) : Host.Outcome State Fault Refusal := endCommand s (pcmResult s)

/-- The Delta Modulation step, 0.5 (R8, R77). -/
def dmDelta : F64 := .fin false (2 ^ 1073)

/-- The pass of DM_ENCODE from `prediction` on (R77). -/
def dmFrom (prediction : F64) : List F64 → List Symbol
  | [] => []
  | x :: xs =>
    if F64.fgt x prediction then .one :: dmFrom (F64.fadd prediction dmDelta) xs
    else .zero :: dmFrom (F64.fsub prediction dmDelta) xs

/-- The symbols of DM_ENCODE: `prediction` starts at 0.0 (R77). -/
def dmSymbols (xs : List F64) : List Symbol := dmFrom (.fin false 0) xs

/-- `dm` (R77). -/
def execDm (s : State) : Host.Outcome State Fault Refusal :=
  endCommand s ((dmInput s).map (fun xs => s.putSymbols (dmSymbols (xs.map F64.ofBits))))

end Sys2Proof.Machine
end

