-- ==== Sys2Proof/Machine/LineEncode.lean ====
section
/-!
DEFINITION. The LINE_ENCODE family (spec/40_line_encode.md R62 to R67): each scheme as a pure function from
symbols to levels, and the five commands. The transient register of a scheme is the first argument of its
pass (spec/10_state.md R30).
-/

namespace Sys2Proof.Machine

/-- `ENC_NRZ_L` (R63). -/
def encNrzl : List Symbol → List Level
  | [] => []
  | .one :: s => .high :: encNrzl s
  | .zero :: s => .low :: encNrzl s

/-- The pass of `ENC_NRZ_I` from `level` on: flip on ONE, then emit (R64). -/
def nrziFrom (level : Polarity) : List Symbol → List Level
  | [] => []
  | .one :: s => level.neg.level :: nrziFrom level.neg s
  | .zero :: s => level.level :: nrziFrom level s

/-- `ENC_NRZ_I`: `level` starts at LOW (R64). -/
def encNrzi (s : List Symbol) : List Level := nrziFrom .low s

/-- `ENC_MANCHESTER` (R65). -/
def encMan : List Symbol → List Level
  | [] => []
  | .zero :: s => .high :: .low :: encMan s
  | .one :: s => .low :: .high :: encMan s

/-- The pass of `ENC_DIFF_MANCHESTER` from `prevLevel` on: a transition at the start for ZERO, then one in
the middle, after which `prevLevel` is the level of the last slot (R66). -/
def dmanFrom (prevLevel : Polarity) : List Symbol → List Level
  | [] => []
  | .zero :: s => prevLevel.neg.level :: prevLevel.neg.neg.level :: dmanFrom prevLevel.neg.neg s
  | .one :: s => prevLevel.level :: prevLevel.neg.level :: dmanFrom prevLevel.neg s

/-- `ENC_DIFF_MANCHESTER`: `prevLevel` starts at `DMAN_INIT` (R66). -/
def encDman (dmanInit : Polarity) (s : List Symbol) : List Level := dmanFrom dmanInit s

/-- The pass of `ENC_AMI` from `lastPolarity` on: emit it for ONE, then flip it (R67). -/
def amiFrom (lastPolarity : Polarity) : List Symbol → List Level
  | [] => []
  | .zero :: s => .neutral :: amiFrom lastPolarity s
  | .one :: s => lastPolarity.level :: amiFrom lastPolarity.neg s

/-- `ENC_AMI`: `lastPolarity` starts at HIGH (R67). -/
def encAmi (s : List Symbol) : List Level := amiFrom .high s

/-- LINE_ENCODE with the scheme `enc` (R62). -/
def lineEncode (enc : List Symbol → List Level) (s : State) : Host.Outcome State Fault Refusal :=
  endCommand s ((lineInput s).map (fun syms => s.putTrain (enc syms)))

/-- `enc.nrzl` (R62, R63). -/
def execEncNrzl (s : State) : Host.Outcome State Fault Refusal := lineEncode encNrzl s

/-- `enc.nrzi` (R62, R64). -/
def execEncNrzi (s : State) : Host.Outcome State Fault Refusal := lineEncode encNrzi s

/-- `enc.man` (R62, R65). -/
def execEncMan (s : State) : Host.Outcome State Fault Refusal := lineEncode encMan s

/-- `enc.dman` (R62, R66), with the parameter `DMAN_INIT`. -/
def execEncDman (s : State) : Host.Outcome State Fault Refusal := lineEncode (encDman s.cfg.dmanInit) s

/-- `enc.ami` (R62, R67). -/
def execEncAmi (s : State) : Host.Outcome State Fault Refusal := lineEncode encAmi s

end Sys2Proof.Machine
end

