-- ==== Sys2Proof/Machine/Scramble.lean ====
section
/-!
DEFINITION. The SCRAMBLE family (spec/41_scramble.md R69 to R71): each scheme as one scan over the symbols,
with the transient registers of spec/10_state.md R30 in a record, and the two commands.
-/

namespace Sys2Proof.Machine

/-- `out[start + k] <- pattern[k]` for every `k` of the pattern. -/
def overwrite (out : List Level) (start : Nat) : List Level → List Level
  | [] => out
  | p :: ps => overwrite (out.set start p) (start + 1) ps

/-- The transient registers of a B8ZS pass, and its train (R70). -/
structure B8zsScan where
  /-- The index of the next symbol. -/
  i : Nat
  /-- ZEROs seen in the present run since its start or its last substitution, 0 to 7. -/
  zeroCount : Nat
  /-- Which of the two signs the next substitution has. -/
  flag : Bool
  /-- The train. -/
  out : List Level
  deriving DecidableEq, Repr

/-- The sign of a B8ZS substitution: `flag ? neg(B8ZS_FIRST_SIGN) : B8ZS_FIRST_SIGN` (R70). -/
def b8zsSign (first : Polarity) (flag : Bool) : Polarity := if flag then first.neg else first

/-- The eight slots of a B8ZS substitution: violation pulses at offsets 3 and 7, the rest NEUTRAL (R70). -/
def b8zsPattern (sign : Polarity) : List Level :=
  [.neutral, .neutral, .neutral, sign.level, .neutral, .neutral, .neutral, sign.level]

/-- One turn of the B8ZS scan, on symbol `s[i]` (R70). -/
def b8zsStep (first : Polarity) (z : B8zsScan) : Symbol → B8zsScan
  | .one => { z with i := z.i + 1, zeroCount := 0 }
  | .zero =>
    if z.zeroCount + 1 = 8 then
      { i := z.i + 1
        zeroCount := 0
        flag := !z.flag
        out := overwrite z.out (z.i - 7) (b8zsPattern (b8zsSign first z.flag)) }
    else { z with i := z.i + 1, zeroCount := z.zeroCount + 1 }

/-- `SCR_B8ZS` (R70). -/
def scrB8zs (first : Polarity) (s : List Symbol) : List Level :=
  (s.foldl (b8zsStep first) { i := 0, zeroCount := 0, flag := false, out := encAmi s }).out

/-- The transient registers of an HDB3 pass, and its train (R71). -/
structure Hdb3Scan where
  /-- The index of the next symbol. -/
  i : Nat
  /-- ZEROs seen in the present run since its start or its last substitution, 0 to 3. -/
  zeroCount : Nat
  /-- The parity of the nonzero pulses since the last substitution: `true` is odd. -/
  flag : Bool
  /-- The sign of the last nonzero pulse written. -/
  prev : Polarity
  /-- The train. -/
  out : List Level
  deriving DecidableEq, Repr

/-- The sign of HDB3's even-parity substitution (R71, D15). -/
def hdb3EvenPolarity (even : EvenSign) (prev : Polarity) : Polarity :=
  match even with
  | .opposite => prev.neg
  | .same => prev

/-- One turn of the HDB3 scan, on symbol `s[i]` (R71). -/
def hdb3Step (even : EvenSign) (z : Hdb3Scan) : Symbol → Hdb3Scan
  | .one =>
    { i := z.i + 1
      zeroCount := 0
      flag := !z.flag
      prev := z.prev.neg
      out := z.out.set z.i z.prev.neg.level }
  | .zero =>
    if z.zeroCount + 1 = 4 then
      if z.flag = false then
        { i := z.i + 1
          zeroCount := 0
          flag := false
          prev := hdb3EvenPolarity even z.prev
          out := (z.out.set (z.i - 3) (hdb3EvenPolarity even z.prev).level).set z.i
            (hdb3EvenPolarity even z.prev).level }
      else
        { i := z.i + 1
          zeroCount := 0
          flag := false
          prev := z.prev
          out := z.out.set z.i z.prev.level }
    else { z with i := z.i + 1, zeroCount := z.zeroCount + 1 }

/-- `SCR_HDB3` (R71); `prev` starts at LOW. -/
def scrHdb3 (even : EvenSign) (s : List Symbol) : List Level :=
  (s.foldl (hdb3Step even) { i := 0, zeroCount := 0, flag := false, prev := .low, out := encAmi s }).out

/-- SCRAMBLE with the scheme `scr`; the input train must be the AMI encoding of the symbols (R69). -/
def scramble (scr : List Symbol → List Level) (s : State) : Host.Outcome State Fault Refusal :=
  endCommand s ((scrambleInput encAmi s).map (fun syms => s.rewriteTrain (scr syms)))

/-- `scr.b8zs` (R69, R70), with the parameter `B8ZS_FIRST_SIGN`. -/
def execScrB8zs (s : State) : Host.Outcome State Fault Refusal := scramble (scrB8zs s.cfg.b8zsFirstSign) s

/-- `scr.hdb3` (R69, R71), with the parameter `HDB3_EVEN_SIGN`. -/
def execScrHdb3 (s : State) : Host.Outcome State Fault Refusal := scramble (scrHdb3 s.cfg.hdb3EvenSign) s

end Sys2Proof.Machine
end

