-- ==== Sys2Proof/Machine/Dispatch.lean ====
section
/-!
DEFINITION. The meaning of each instruction, one arm per constructor of Instr
(spec/70_reset_and_hazards.md R98: the selected command runs to completion or to a model fault).
-/

namespace Sys2Proof.Machine

def exec (i : Instr) (s : State) : Host.Outcome State Fault Refusal :=
  match i with
  | .encNrzl => Sys2Proof.Machine.execEncNrzl s
  | .encNrzi => Sys2Proof.Machine.execEncNrzi s
  | .encMan => Sys2Proof.Machine.execEncMan s
  | .encDman => Sys2Proof.Machine.execEncDman s
  | .encAmi => Sys2Proof.Machine.execEncAmi s
  | .scrB8zs => Sys2Proof.Machine.execScrB8zs s
  | .scrHdb3 => Sys2Proof.Machine.execScrHdb3 s
  | .pcm => Sys2Proof.Machine.execPcm s
  | .dm => Sys2Proof.Machine.execDm s

end Sys2Proof.Machine
end

