-- ==== Sys2Proof/Machine/HostAccess.lean ====
section
/-!
DEFINITION. What each host action does (spec/70_reset_and_hazards.md R98 to R100; spec/10_state.md R20 to
R28; spec/20_memory.md R40), the pseudo-instructions of spec/30_encoding.md R61, and what the host owes.
-/

namespace Sys2Proof.Machine

/-- A host write of the word `w` to CMD: `w` is stored, decoded, and the command it selects runs; a word
that selects none ends in InvalidInput (R20, R57, R98). -/
def writeCmd (w : Word) (s : State) : Host.Outcome State Fault Refusal :=
  match decode w with
  | .ok i => exec i { s with cmd := w }
  | .error e => .next (State.raiseInvalid (illegalCause e) { s with cmd := w })

/-- A host write of a register by its number (R20 to R28). -/
def writeRegister (reg : Nat) (v : Word) (s : State) : Host.Outcome State Fault Refusal :=
  match reg with
  | 0 => writeCmd v s
  | 1 => .next (s.hostFault .writeRo)
  | 2 => .next (s.hostFault .writeRo)
  | 3 => .next { s with symLen := v }
  | 4 => .next { s with pulLen := v }
  | 5 => .next { s with smpLen := v }
  | 6 => .next { s with bps := v }
  | _ => .next (s.hostFault .badRegister)

/-- The word of a register by its number, `none` for an unmapped number (R20 to R27). -/
def State.registerWord (s : State) (reg : Nat) : Option Word :=
  match reg with
  | 0 => some s.cmd
  | 1 => some s.statusWord
  | 2 => some s.errCauseWord
  | 3 => some s.symLen
  | 4 => some s.pulLen
  | 5 => some s.smpLen
  | 6 => some s.bps
  | _ => none

/-- The host gets `r` back; nothing of the block changes (R46, R99). -/
def State.reply (r : HostReply) (s : State) : State := { s with got := r :: s.got }

/-- A host read of a register (R27, R99). -/
def readRegister (reg : Nat) (s : State) : Host.Outcome State Fault Refusal :=
  match s.registerWord reg with
  | some v => .next (s.reply (.register v))
  | none => .next (s.hostFault .badRegister)

/-- A host read of an element of a buffer `m` of capacity `cap` (R39, R40, R99). -/
def readElement {w : Nat} (cap : Nat) (m : Memory w) (i : Nat) (as : BitVec w → HostReply) (s : State) :
    Host.Outcome State Fault Refusal :=
  if i < cap then
    match m.read i with
    | some v => .next (s.reply (as v))
    | none => .next (s.hostFault .undefRead)
  else .next (s.hostFault .indexRange)

/-- A host write of an element, `t` being the state with the element stored (R40). -/
def writeElement (cap i : Nat) (t s : State) : Host.Outcome State Fault Refusal :=
  if i < cap then .next t else .next (s.hostFault .indexRange)

/-- A register or element access, or a reset, when no BUSY protocol stops it (R99). -/
def hostAccess (a : HostAction) (s : State) : Host.Outcome State Fault Refusal :=
  match a with
  | .cmd w => writeCmd w s
  | .wr reg v => writeRegister reg v s
  | .rd reg => readRegister reg s
  | .stSym i b => writeElement s.cfg.nMax i { s with sym := s.sym.write i b } s
  | .stPul i c => writeElement s.cfg.pMax i { s with pul := s.pul.write i c } s
  | .stSmp i x => writeElement s.cfg.sMax i { s with smp := s.smp.write i x } s
  | .ldSym i => readElement s.cfg.nMax s.sym i .symbol s
  | .ldPul i => readElement s.cfg.pMax s.pul i .pulse s
  | .ldSmp i => readElement s.cfg.sMax s.smp i .sample s
  | .reset => .next s.resetBlock

/-- The host actions that R100 allows while STATE = BUSY: a read of STATUS, and a reset, which is no
access to a register or an element (log entry 8). -/
def HostAction.allowedBusy : HostAction → Bool
  | .rd reg => reg == 1
  | .reset => true
  | .cmd _ => false
  | .wr _ _ => false
  | .stSym _ _ => false
  | .stPul _ _ => false
  | .stSmp _ _ => false
  | .ldSym _ => false
  | .ldPul _ => false
  | .ldSmp _ => false

/-- One host action; while STATE = BUSY any access but a STATUS read is BUSY_ACCESS (R85, R100). -/
def hostAct (a : HostAction) (s : State) : Host.Outcome State Fault Refusal :=
  if s.status = stateBusy ∧ a.allowedBusy = false then .next (s.hostFault .busyAccess) else hostAccess a s

/-- The host's duties of R99 that its action alone shows: a mapped register, no write to a read-only one,
and an index below capacity. -/
def HostAction.wf (c : Config) : HostAction → Bool
  | .cmd _ => true
  | .wr reg _ => decide (reg < 7) && decide (reg ≠ 1) && decide (reg ≠ 2)
  | .rd reg => decide (reg < 7)
  | .stSym i _ => decide (i < c.nMax)
  | .stPul i _ => decide (i < c.pMax)
  | .stSmp i _ => decide (i < c.sMax)
  | .ldSym i => decide (i < c.nMax)
  | .ldPul i => decide (i < c.pMax)
  | .ldSmp i => decide (i < c.sMax)
  | .reset => true

/-- `st SMP[i], x` with `x` written as a decimal literal (R60). -/
def storeLiteral (i : Nat) (neg : Bool) (digits : Nat) (scale : Int) : Option HostAction :=
  (F64.ofDecimal neg digits scale).toBits.map (.stSmp i)

/-- `st PUL[i], x` with `x` written as a level name (R60, R37). -/
def storeLevel (i : Nat) (l : Level) : HostAction := .stPul i (levelCode l)

/-- The pseudo-instructions of R61. -/
inductive Pseudo where
  | ldsym (bits : List (BitVec 1))
  | ldsmp (xs : List (BitVec 64))
  | ldpul (codes : List (BitVec 2))
  | pcmB (b : Word)
  | amiB8zs
  | amiHdb3
  | wait
  deriving DecidableEq, Repr

/-- `st buf[start], x0`, `st buf[start+1], x1`, and so on. -/
def storesFrom {w : Nat} (st : Nat → BitVec w → HostAction) (start : Nat) : List (BitVec w) → List HostAction
  | [] => []
  | x :: xs => st start x :: storesFrom st (start + 1) xs

/-- The operand `n` of the length write that ends an expansion (R61). Where 32 bits cannot hold `n` the spec
states no value and the operand is a free value (log entry 20). -/
def countWord (n : Nat) : Word := if n < 2 ^ 32 then BitVec.ofNat 32 n else Config.overlongCount n

/-- The expansions of R61. `wait` reads STATUS once, since STATE is never BUSY between steps (R61, R98, log
entry 18). -/
def Pseudo.expand : Pseudo → List HostAction
  | .ldsym bits => storesFrom .stSym 0 bits ++ [.wr 3 (countWord bits.length)]
  | .ldsmp xs => storesFrom .stSmp 0 xs ++ [.wr 5 (countWord xs.length)]
  | .ldpul codes => storesFrom .stPul 0 codes ++ [.wr 4 (countWord codes.length)]
  | .pcmB b => [.wr 6 b, .cmd (encode .pcm)]
  | .amiB8zs => [.cmd (encode .encAmi), .cmd (encode .scrB8zs)]
  | .amiHdb3 => [.cmd (encode .encAmi), .cmd (encode .scrHdb3)]
  | .wait => [.rd 1]

end Sys2Proof.Machine
end

