-- ==== Sys2Proof/Machine/Step.lean ====
section
/-!
DEFINITION. One step of the machine: the next host action, taken as a whole
(spec/70_reset_and_hazards.md R98, R99, R106).
-/

namespace Sys2Proof.Machine

/-- One step. With FAULT set no step is taken (R32, R85). With no host action left the run has ended and
the block waits (R96, R106; log entry 5). -/
def step (s : State) : Host.Outcome State Fault Refusal :=
  match s.fault with
  | some r => .fault (.hostFault r)
  | none =>
    match s.host with
    | [] => .next s
    | a :: rest => hostAct a { s with host := rest }

/-- The state whose next host action is the CMD write of the opcode-table word `w` of `nbits` bits. The
block fetches nothing (R19): a command runs because the host writes it to CMD (log entry 4). -/
def State.withFetchWord (s : State) (nbits w : Nat) : State :=
  { s with host := .cmd (tableWord nbits w) :: s.host }

end Sys2Proof.Machine
end

