-- ==== Sys2Proof/Safety.lean ====
section
/-!
DEFINITION. What claims are said in: the observation of a command and the good end of a run
(spec/70_reset_and_hazards.md R106), runs, the invariant of the state, what a command needs of a state
(R97), and the slots of a train described by position, without a pass over the symbols.
-/

/-- A sign flipped `n` times. -/
def Sys2Proof.Polarity.flips (n : Nat) (p : Sys2Proof.Polarity) : Sys2Proof.Polarity :=
  if n % 2 = 0 then p else p.neg

namespace Sys2Proof.Machine

/-- The elements 0 to n-1 of a buffer as they stand, UNDEF ones among them. -/
def Memory.firstElements {w : Nat} (m : Memory w) (n : Nat) : List (Option (BitVec w)) := (List.range n).map m.read

/-- The observation of a command (R106): STATUS, ERRCAUSE, the length registers, and the buffer elements
below the length registers. -/
structure Observation where
  statusWord : Word
  errCauseWord : Word
  symLen : Word
  pulLen : Word
  smpLen : Word
  sym : List (Option (BitVec 1))
  pul : List (Option (BitVec 2))
  smp : List (Option (BitVec 64))
  deriving DecidableEq, Repr

/-- What R106 lets a claim about a command observe in the state after its step. -/
def State.observe (s : State) : Observation where
  statusWord := s.statusWord
  errCauseWord := s.errCauseWord
  symLen := s.symLen
  pulLen := s.pulLen
  smpLen := s.smpLen
  sym := s.sym.firstElements s.symLen.toNat
  pul := s.pul.firstElements s.pulLen.toNat
  smp := s.smp.firstElements s.smpLen.toNat

/-- The run has ended: no host action is left (R106). -/
def State.ended (s : State) : Bool := s.host.isEmpty

/-- The run has ended well: no host action is left and FAULT = none (R106). -/
def State.goodEnd (s : State) : Bool := s.ended && s.fault.isNone

/-- `t` is reached from `s` by next steps. -/
inductive Runs : State → State → Prop where
  | refl (s : State) : Runs s s
  | tail {s t u : State} : Runs s t → step t = .next u → Runs s u

/-- The run of a program: from the reset state of the block with parameters `c`, with the host actions of
the program to come (R106). -/
def State.loaded (c : Config) (program : List HostAction) : State :=
  { State.resetWith c with host := program }

/-- The host has kept R99's duties in every action still to come. -/
def State.hostWf (s : State) : Bool := s.host.all (HostAction.wf s.cfg)

/-- The invariant of the state: legal parameters (R7); the buffers in canonical form and inside their
capacities (R35, R40); STATE is never BUSY between steps (R98); the codes of CAUSE that are never written
are not there (R80); and CAUSE is NONE exactly when the last command did not fail (R22). -/
structure State.Inv (s : State) : Prop where
  cfg_wf : s.cfg.wf = true
  sym_wf : s.sym.wf = true
  pul_wf : s.pul.wf = true
  smp_wf : s.smp.wf = true
  sym_within : s.sym.within s.cfg.nMax = true
  pul_within : s.pul.within s.cfg.pMax = true
  smp_within : s.smp.within s.cfg.sMax = true
  not_busy : s.status ≠ stateBusy
  cause_le : s.errCause.toNat ≤ 10
  cause_iff : s.errCause ≠ causeNone ↔ s.status = stateError

/-- The reset values of R34 and R95, of every register and every element. -/
structure State.AtReset (s : State) : Prop where
  cmd : s.cmd = 0x00000000#32
  status : s.statusWord = 0x00000000#32
  errCause : s.errCauseWord = 0x00000000#32
  symLen : s.symLen = 0#32
  pulLen : s.pulLen = 0#32
  smpLen : s.smpLen = 0#32
  bps : s.bps = 0#32
  sym : ∀ i, s.sym.read i = none
  pul : ∀ i, s.pul.read i = none
  smp : ∀ i, s.smp.read i = none
  fault : s.fault = none

/-! ### What a command needs (R97) -/

/-- SYM_LEN is the length of `xs` and SYM[0..SYM_LEN-1] holds `xs`. -/
def State.HoldsSymbols (s : State) (xs : List Symbol) : Prop :=
  s.symLen.toNat = xs.length ∧ ∀ i x, xs[i]? = some x → s.sym.read i = some (symbolBit x)

/-- PUL_LEN is the length of `p` and PUL[0..PUL_LEN-1] holds `p`. -/
def State.HoldsTrain (s : State) (p : List Level) : Prop :=
  s.pulLen.toNat = p.length ∧ ∀ i x, p[i]? = some x → s.pul.read i = some (levelCode x)

/-- SMP_LEN is the length of `ws` and SMP[0..SMP_LEN-1] holds `ws`. -/
def State.HoldsSamples (s : State) (ws : List (BitVec 64)) : Prop :=
  s.smpLen.toNat = ws.length ∧ ∀ i x, ws[i]? = some x → s.smp.read i = some x

/-- The state in which LINE_ENCODE encodes `xs`: 1 to N_MAX symbols, each defined (R62, R97). -/
def State.LineReady (s : State) (xs : List Symbol) : Prop :=
  s.HoldsSymbols xs ∧ xs ≠ [] ∧ xs.length ≤ s.cfg.nMax

/-- The state in which SCRAMBLE rewrites the train of `xs`: PUL is the AMI encoding of SYM (R69, R97). -/
def State.ScrambleReady (s : State) (xs : List Symbol) : Prop :=
  s.LineReady xs ∧ s.HoldsTrain (encAmi xs)

/-- Every element a command reads is defined (R39, R41, R97). -/
def State.inputsDefined (s : State) : Instr → Prop
  | .encNrzl | .encNrzi | .encMan | .encDman | .encAmi => ∀ j, j < s.symLen.toNat → s.sym.read j ≠ none
  | .scrB8zs | .scrHdb3 => ∀ j, j < s.symLen.toNat → s.sym.read j ≠ none ∧ s.pul.read j ≠ none
  | .pcm | .dm => ∀ j, j < s.smpLen.toNat → s.smp.read j ≠ none

/-- Two states agree on all that a command reads (the table of R41), parameters among it. -/
def inputsAgree (i : Instr) (s s' : State) : Prop :=
  s.cfg = s'.cfg ∧
    match i with
    | .encNrzl | .encNrzi | .encMan | .encDman | .encAmi =>
      s.symLen = s'.symLen ∧ ∀ j, j < s.symLen.toNat → s.sym.read j = s'.sym.read j
    | .scrB8zs | .scrHdb3 =>
      s.symLen = s'.symLen ∧ s.pulLen = s'.pulLen ∧
        ∀ j, j < s.symLen.toNat → s.sym.read j = s'.sym.read j ∧ s.pul.read j = s'.pul.read j
    | .pcm =>
      s.smpLen = s'.smpLen ∧ s.bps = s'.bps ∧ ∀ j, j < s.smpLen.toNat → s.smp.read j = s'.smp.read j
    | .dm => s.smpLen = s'.smpLen ∧ ∀ j, j < s.smpLen.toNat → s.smp.read j = s'.smp.read j

/-- Two states agree on all that a command writes when it succeeds (the table of R41). -/
def outputsAgree (i : Instr) (s s' : State) : Prop :=
  match i with
  | .encNrzl | .encNrzi | .encAmi =>
    s.pulLen = s'.pulLen ∧ ∀ j, j < s.symLen.toNat → s.pul.read j = s'.pul.read j
  | .encMan | .encDman =>
    s.pulLen = s'.pulLen ∧ ∀ j, j < 2 * s.symLen.toNat → s.pul.read j = s'.pul.read j
  | .scrB8zs | .scrHdb3 => ∀ j, j < s.symLen.toNat → s.pul.read j = s'.pul.read j
  | .pcm =>
    s.symLen = s'.symLen ∧ ∀ j, j < s.smpLen.toNat * s.bps.toNat → s.sym.read j = s'.sym.read j
  | .dm => s.symLen = s'.symLen ∧ ∀ j, j < s.smpLen.toNat → s.sym.read j = s'.sym.read j

/-! ### Trains by position -/

/-- The number of ONEs among the symbols before index `i`. -/
def onesBefore (xs : List Symbol) (i : Nat) : Nat := (xs.take i).count .one

/-- The number of consecutive ZERO symbols that end at index `i`, index `i` among them. -/
def zerosEndingAt (xs : List Symbol) : Nat → Nat
  | 0 => if xs[0]? = some .zero then 1 else 0
  | i + 1 => if xs[i + 1]? = some .zero then zerosEndingAt xs i + 1 else 0

/-- A complete block of `k` ZEROs, counted from the start of its run, ends at index `i` (90_conflicts.md C4). -/
def blockEnds (k : Nat) (xs : List Symbol) (i : Nat) : Bool :=
  decide (0 < zerosEndingAt xs i) && decide (zerosEndingAt xs i % k = 0)

/-- The number of complete blocks of `k` ZEROs that end before index `i`. -/
def blocksBefore (k : Nat) (xs : List Symbol) (i : Nat) : Nat := (List.range i).countP (blockEnds k xs)

/-- The slot `i` of an AMI train (R67). -/
def amiSlot (xs : List Symbol) (i : Nat) : Level :=
  if xs[i]? = some .one then (Polarity.high.flips (onesBefore xs i)).level else .neutral

/-- The slot `i` of a B8ZS train: offset 7 or offset 3 of a complete block of 8 has the block's sign, which
alternates from block to block; every other slot is AMI's (R70). -/
def b8zsSlot (first : Polarity) (xs : List Symbol) (i : Nat) : Level :=
  if blockEnds 8 xs i then (first.flips (blocksBefore 8 xs i)).level
  else if blockEnds 8 xs (i + 4) then (first.flips (blocksBefore 8 xs (i + 4))).level
  else amiSlot xs i

/-- The number of ONEs before index `i` and after the last complete block of 4 ZEROs before it. -/
def onesSinceBlock (xs : List Symbol) : Nat → Nat
  | 0 => 0
  | i + 1 => if blockEnds 4 xs i then 0 else onesSinceBlock xs i + (if xs[i]? = some .one then 1 else 0)

/-- The last nonzero pulse before slot `i` of a train, LOW when there is none (R71, R72). -/
def lastPulse (out : List Level) : Nat → Level
  | 0 => .low
  | i + 1 =>
    match out[i]? with
    | some .high => .high
    | some .low => .low
    | some .neutral => lastPulse out i
    | none => lastPulse out i

/-- The slot `i` of an HDB3 train, given the last nonzero pulse before it: a ONE alternates, the offset-3
pulse of a block repeats, the offset-0 pulse of an even-parity block has the sign of `HDB3_EVEN_SIGN`, and
every other slot is NEUTRAL (R71, R72). -/
def hdb3Slot (even : EvenSign) (xs : List Symbol) (last : Level) (i : Nat) : Level :=
  if xs[i]? = some .one then last.neg
  else if blockEnds 4 xs i then last
  else if blockEnds 4 xs (i + 3) && decide (onesSinceBlock xs (i + 3) % 2 = 0) then
    match even with
    | .opposite => last.neg
    | .same => last
  else .neutral

/-! ### binary64 -/

/-- A magnitude, in units of 2^-1074, that some finite binary64 value has: 53 significant bits, below 2^1024. -/
def F64.Representable (mag : Nat) : Prop := mag < F64.overflow ∧ ∃ k e, k < 2 ^ 53 ∧ mag = k * 2 ^ e

/-- `0.5 * z` as a binary64 value, for an integer `z` (R77). -/
def F64.halves (z : Int) : F64 := .fin (decide (z < 0)) (z.natAbs * 2 ^ 1073)

end Sys2Proof.Machine
end

