-- ==== Sys2Proof/Certificates/Slice0/Obligations.lean ====
section
/-!
DEFINITION. The statements for the provers. Each docstring names the rules of spec/ it rests on, and the log
entry where a clause is the model's own choice.
-/

open Sys2Proof Sys2Proof.Machine

/-! ### Encoding -/

/-- R53 to R57: decoding the word of an instruction gives it back, and a word that decodes to an instruction
is that instruction's word, so that no bit of the 32 is dropped. -/
def Obligations.DecodeEncodeAgree : Prop :=
  (∀ i : Instr, i.wf = true → decode (encode i) = .ok i) ∧
    ∀ (w : Word) (i : Instr), decode w = .ok i → w = encode i

/-- R53 to R55: words written out from the field tables decode to the commands they stand for. -/
def Obligations.WrittenWordsDecode : Prop :=
  decode 0b00000000000000000000000000110001#32 = .ok .encDman ∧
    decode 0b00000000000000000000000000010010#32 = .ok .scrHdb3 ∧
    decode 0b00000000000000000000000000000011#32 = .ok .pcm ∧
    decode 0b00000000000000000000000000000100#32 = .ok .dm ∧
    decode 0b00000000000000000000000001010001#32 = .error .badScheme ∧
    decode 0b00000000000000000000000101010000#32 = .error .badOpcode

/-- R58: the nine words are legal and every other word, written to CMD, ends in InvalidInput. -/
def Obligations.OnlyNineWordsAreLegal : Prop :=
  ∀ w : Word,
    let legal : List Word := [0x00000001#32, 0x00000011#32, 0x00000021#32, 0x00000031#32, 0x00000041#32,
      0x00000002#32, 0x00000012#32, 0x00000003#32, 0x00000004#32]
    ((∃ i, decode w = .ok i) ↔ w ∈ legal) ∧
      ∀ (s : State) (rest : List HostAction), w ∉ legal → s.fault = none → s.status ≠ stateBusy →
        s.host = .cmd w :: rest →
          ∃ e, decode w = .error e ∧
            step s = .next { s with cmd := w, host := rest, status := 3#2, errCause := (illegalCause e).code }

/-- R57: the decode of a command word, case by case, RSVD first, and what an illegal word does: the command
ends with InvalidInput of its cause and changes nothing but STATUS and ERRCAUSE (CMD holds the word). -/
def Obligations.DecodeFollowsTheTable : Prop :=
  ∀ w : Word,
    (w.extractLsb' 8 24 ≠ 0#24 → decode w = .error .badOpcode) ∧
    (w.extractLsb' 8 24 = 0#24 →
      (w.extractLsb' 0 4 = 0x1#4 →
        (w.extractLsb' 4 4 = 0x0#4 → decode w = .ok .encNrzl) ∧
        (w.extractLsb' 4 4 = 0x1#4 → decode w = .ok .encNrzi) ∧
        (w.extractLsb' 4 4 = 0x2#4 → decode w = .ok .encMan) ∧
        (w.extractLsb' 4 4 = 0x3#4 → decode w = .ok .encDman) ∧
        (w.extractLsb' 4 4 = 0x4#4 → decode w = .ok .encAmi) ∧
        (5 ≤ (w.extractLsb' 4 4).toNat → decode w = .error .badScheme)) ∧
      (w.extractLsb' 0 4 = 0x2#4 →
        (w.extractLsb' 4 4 = 0x0#4 → decode w = .ok .scrB8zs) ∧
        (w.extractLsb' 4 4 = 0x1#4 → decode w = .ok .scrHdb3) ∧
        (2 ≤ (w.extractLsb' 4 4).toNat → decode w = .error .badScheme)) ∧
      (w.extractLsb' 0 4 = 0x3#4 →
        (w.extractLsb' 4 4 = 0x0#4 → decode w = .ok .pcm) ∧
        (w.extractLsb' 4 4 ≠ 0x0#4 → decode w = .error .badScheme)) ∧
      (w.extractLsb' 0 4 = 0x4#4 →
        (w.extractLsb' 4 4 = 0x0#4 → decode w = .ok .dm) ∧
        (w.extractLsb' 4 4 ≠ 0x0#4 → decode w = .error .badScheme)) ∧
      (w.extractLsb' 0 4 = 0x0#4 ∨ 5 ≤ (w.extractLsb' 0 4).toNat → decode w = .error .badOpcode)) ∧
    ∀ (s : State) (rest : List HostAction), s.fault = none → s.status ≠ stateBusy → s.host = .cmd w :: rest →
      (decode w = .error .badOpcode →
        step s = .next { s with cmd := w, host := rest, status := 3#2, errCause := 1#8 }) ∧
      (decode w = .error .badScheme →
        step s = .next { s with cmd := w, host := rest, status := 3#2, errCause := 2#8 })

/-! ### The step -/

/-- R98: a write of a legal word to CMD, as `cmd` or as a write of register 0, runs the instruction the word
decodes to, in the state with CMD holding the word; so does the word that `withFetchWord` places. -/
def Obligations.StepRunsTheWrittenCommand : Prop :=
  ∀ (s : State) (w : Word) (i : Instr) (rest : List HostAction),
    s.fault = none → s.status ≠ stateBusy → decode w = .ok i →
      (s.host = .cmd w :: rest → step s = exec i { s with cmd := w, host := rest }) ∧
      (s.host = .wr 0 w :: rest → step s = exec i { s with cmd := w, host := rest }) ∧
      step (s.withFetchWord 32 w.toNat) = exec i { s with cmd := w }

/-- R32, R85: a state with FAULT set takes no step; that the step answers a fault is the model's reading of
"no later step of the block is taken" (log entry 6). -/
def Obligations.FaultStopsTheMachine : Prop :=
  ∀ (s : State) (r : HostFault), s.fault = some r → step s = .fault (.hostFault r)

/-- R96, R106: with no host action left the block waits; that the step then answers the same state is the
model's choice (log entry 5). -/
def Obligations.EndedRunStays : Prop :=
  ∀ s : State, s.fault = none → s.host = [] → step s = .next s

/-- R7, R79, R98: without a recorded fault every step answers a next state; it takes exactly one host action
and leaves the parameters alone. That the step with no host action left answers at all (the same state) is
the model's choice (log entry 5), and that the step in which a model fault arises answers a next state, with
FAULT set, is the model's reading of R85 (log entry 6). -/
def Obligations.EveryStepAnswers : Prop :=
  ∀ s : State, s.fault = none →
    ∃ t, step s = .next t ∧ t.cfg = s.cfg ∧ t.host = s.host.tail

/-! ### Reset -/

/-- R34, R95: the state after reset, and the state that a reset leaves inside a run, hold the reset values.
The parameters (R7, no state) are kept. -/
def Obligations.ResetLeavesResetValues : Prop :=
  State.reset.AtReset ∧ (∀ c : Config, (State.resetWith c).AtReset) ∧
    ∀ (s : State) (rest : List HostAction), s.fault = none → s.status ≠ stateBusy → s.host = .reset :: rest →
      ∃ t, step s = .next t ∧ t.AtReset ∧ t.cfg = s.cfg ∧ t.host = rest

/-- R96: a CMD write right after reset. Word 0 reports BAD_OPCODE, a legal word EMPTY_INPUT, and `dm`
succeeds with SYM_LEN = 0. -/
def Obligations.FirstCommandAfterReset : Prop :=
  ∀ c : Config, c.wf = true →
    step { State.resetWith c with host := [.cmd 0x00000000#32] } =
      .next { State.resetWith c with status := 3#2, errCause := 1#8 } ∧
    (∀ i : Instr, i ≠ .dm →
      step { State.resetWith c with host := [.cmd (encode i)] } =
        .next { State.resetWith c with cmd := encode i, status := 3#2, errCause := 4#8 }) ∧
    step { State.resetWith c with host := [.cmd (encode .dm)] } =
      .next { State.resetWith c with cmd := encode .dm, status := 2#2 }

/-! ### Host access -/

/-- R20 to R26, R46: a read of a mapped register gives its word and changes nothing of the block; STATUS
holds STATE in bits 1:0 and ERRCAUSE holds CAUSE in bits 7:0, zeros above. -/
def Obligations.RegisterReads : Prop :=
  ∀ (s : State) (n : Nat) (rest : List HostAction) (v : Word),
    s.fault = none → s.status ≠ stateBusy → s.host = .rd n :: rest →
      (n = 0 ∧ v = s.cmd ∨
        n = 1 ∧ (v.extractLsb' 0 2 = s.status ∧ v.extractLsb' 2 30 = 0#30) ∨
        n = 2 ∧ (v.extractLsb' 0 8 = s.errCause ∧ v.extractLsb' 8 24 = 0#24) ∨
        n = 3 ∧ v = s.symLen ∨ n = 4 ∧ v = s.pulLen ∨ n = 5 ∧ v = s.smpLen ∨ n = 6 ∧ v = s.bps) →
      step s = .next { s with host := rest, got := .register v :: s.got }

/-- R27, R28: an access to an unmapped register number and a write to a read-only register are model faults. -/
def Obligations.RegisterAccessFaults : Prop :=
  ∀ (s : State) (rest : List HostAction), s.fault = none → s.status ≠ stateBusy →
    (∀ n, 7 ≤ n → s.host = .rd n :: rest →
      step s = .next { s with host := rest, fault := some .badRegister }) ∧
    (∀ n v, 7 ≤ n → s.host = .wr n v :: rest →
      step s = .next { s with host := rest, fault := some .badRegister }) ∧
    (∀ n v, n = 1 ∨ n = 2 → s.host = .wr n v :: rest →
      step s = .next { s with host := rest, fault := some .writeRo })

/-- R23 to R26, R46: a write of SYM_LEN, PUL_LEN, SMP_LEN or BPS stores any 32-bit value and nothing else. -/
def Obligations.LengthRegisterWrites : Prop :=
  ∀ (s : State) (rest : List HostAction) (v : Word), s.fault = none → s.status ≠ stateBusy →
    (s.host = .wr 3 v :: rest → step s = .next { s with host := rest, symLen := v }) ∧
    (s.host = .wr 4 v :: rest → step s = .next { s with host := rest, pulLen := v }) ∧
    (s.host = .wr 5 v :: rest → step s = .next { s with host := rest, smpLen := v }) ∧
    (s.host = .wr 6 v :: rest → step s = .next { s with host := rest, bps := v })

/-- R40, R46: an element written below capacity reads back, every other element and everything else is
unchanged, and the write is followed by a read that gives the element. -/
def Obligations.ElementWriteThenRead : Prop :=
  ∀ (s : State) (i : Nat) (rest : List HostAction), s.fault = none → s.status ≠ stateBusy →
    (∀ b : BitVec 1, i < s.cfg.nMax → s.host = .stSym i b :: .ldSym i :: rest →
      ∃ t, step s = .next t ∧ t.sym.read i = some b ∧ (∀ a, a ≠ i → t.sym.read a = s.sym.read a) ∧
        t = { s with sym := t.sym, host := .ldSym i :: rest } ∧
        step t = .next { t with host := rest, got := .symbol b :: s.got }) ∧
    (∀ c : BitVec 2, i < 2 * s.cfg.nMax → s.host = .stPul i c :: .ldPul i :: rest →
      ∃ t, step s = .next t ∧ t.pul.read i = some c ∧ (∀ a, a ≠ i → t.pul.read a = s.pul.read a) ∧
        t = { s with pul := t.pul, host := .ldPul i :: rest } ∧
        step t = .next { t with host := rest, got := .pulse c :: s.got }) ∧
    (∀ x : BitVec 64, i < s.cfg.sMax → s.host = .stSmp i x :: .ldSmp i :: rest →
      ∃ t, step s = .next t ∧ t.smp.read i = some x ∧ (∀ a, a ≠ i → t.smp.read a = s.smp.read a) ∧
        t = { s with smp := t.smp, host := .ldSmp i :: rest } ∧
        step t = .next { t with host := rest, got := .sample x :: s.got })

/-- R39, R40: an access at or above capacity is INDEX_RANGE, and a read of an element never written is
UNDEF_READ. -/
def Obligations.ElementAccessFaults : Prop :=
  ∀ (s : State) (a : HostAction) (i : Nat) (rest : List HostAction), s.fault = none → s.status ≠ stateBusy →
    s.host = a :: rest →
      ((((∃ b, a = .stSym i b) ∨ a = .ldSym i) ∧ s.cfg.nMax ≤ i ∨
          ((∃ c, a = .stPul i c) ∨ a = .ldPul i) ∧ 2 * s.cfg.nMax ≤ i ∨
          ((∃ x, a = .stSmp i x) ∨ a = .ldSmp i) ∧ s.cfg.sMax ≤ i) →
        step s = .next { s with host := rest, fault := some .indexRange }) ∧
      ((a = .ldSym i ∧ i < s.cfg.nMax ∧ s.sym.read i = none ∨
          a = .ldPul i ∧ i < 2 * s.cfg.nMax ∧ s.pul.read i = none ∨
          a = .ldSmp i ∧ i < s.cfg.sMax ∧ s.smp.read i = none) →
        step s = .next { s with host := rest, fault := some .undefRead })

/-- R85, R100: while STATE = BUSY every access but a read of STATUS is BUSY_ACCESS, and a read of STATUS
gives 1. That a reset is no such access, and resets the block, is the model's reading (log entry 8). -/
def Obligations.BusyAccessFaults : Prop :=
  ∀ (s : State) (a : HostAction) (rest : List HostAction), s.fault = none → s.status = 1#2 →
    s.host = a :: rest →
      (a ≠ .rd 1 → a ≠ .reset → step s = .next { s with host := rest, fault := some .busyAccess }) ∧
      (a = .rd 1 → step s = .next { s with host := rest, got := .register 1#32 :: s.got }) ∧
      (a = .reset → ∃ t, step s = .next t ∧ t.AtReset ∧ t.host = rest)

/-- R61: the expansion of `ldsym` stores the symbols and their number, and changes nothing else. -/
def Obligations.LdsymStoresItsSymbols : Prop :=
  ∀ (s : State) (bits : List (BitVec 1)) (rest : List HostAction), s.fault = none → s.status ≠ stateBusy →
    bits.length ≤ s.cfg.nMax → bits.length < 2 ^ 32 → s.host = (Pseudo.ldsym bits).expand ++ rest →
      ∃ t, Runs s t ∧ t.symLen.toNat = bits.length ∧
        (∀ i b, bits[i]? = some b → t.sym.read i = some b) ∧
        (∀ a, bits.length ≤ a → t.sym.read a = s.sym.read a) ∧
        t = { s with sym := t.sym, symLen := t.symLen, host := rest }

/-! ### LINE_ENCODE -/

/-- R62, R63: `enc.nrzl` completes; ONE gives HIGH and ZERO gives LOW, PUL_LEN is the number of symbols, and
nothing else changes. -/
def Obligations.NrzlEncodes : Prop :=
  ∀ (s : State) (xs : List Symbol), s.LineReady xs →
    ∃ t, exec .encNrzl s = .next t ∧ t.pulLen.toNat = xs.length ∧
      (∀ i, xs[i]? = some Symbol.one → t.pul.read i = some 0b01#2) ∧
      (∀ i, xs[i]? = some Symbol.zero → t.pul.read i = some 0b11#2) ∧
      (∀ a, xs.length ≤ a → t.pul.read a = s.pul.read a) ∧
      t = { s with pul := t.pul, pulLen := t.pulLen, status := 2#2, errCause := 0#8 }

/-- R62, R64: `enc.nrzi` completes; slot `i` is HIGH exactly when the number of ONEs up to and with symbol
`i` is odd, since the level starts LOW and flips before it is emitted. -/
def Obligations.NrziEncodes : Prop :=
  ∀ (s : State) (xs : List Symbol), s.LineReady xs →
    ∃ t, exec .encNrzi s = .next t ∧ t.pulLen.toNat = xs.length ∧
      (∀ i, i < xs.length → onesBefore xs (i + 1) % 2 = 1 → t.pul.read i = some 0b01#2) ∧
      (∀ i, i < xs.length → onesBefore xs (i + 1) % 2 = 0 → t.pul.read i = some 0b11#2) ∧
      (∀ a, xs.length ≤ a → t.pul.read a = s.pul.read a) ∧
      t = { s with pul := t.pul, pulLen := t.pulLen, status := 2#2, errCause := 0#8 }

/-- R62, R65: `enc.man` completes; ZERO gives (HIGH, LOW) and ONE gives (LOW, HIGH). PUL_LEN is twice the
number of symbols where 32 bits hold it; where they do not, nothing is said of it (log entry 10). -/
def Obligations.ManchesterEncodes : Prop :=
  ∀ (s : State) (xs : List Symbol), s.LineReady xs →
    ∃ t, exec .encMan s = .next t ∧ (2 * xs.length < 2 ^ 32 → t.pulLen.toNat = 2 * xs.length) ∧
      (∀ i, xs[i]? = some Symbol.zero →
        t.pul.read (2 * i) = some 0b01#2 ∧ t.pul.read (2 * i + 1) = some 0b11#2) ∧
      (∀ i, xs[i]? = some Symbol.one →
        t.pul.read (2 * i) = some 0b11#2 ∧ t.pul.read (2 * i + 1) = some 0b01#2) ∧
      (∀ a, 2 * xs.length ≤ a → t.pul.read a = s.pul.read a) ∧
      t = { s with pul := t.pul, pulLen := t.pulLen, status := 2#2, errCause := 0#8 }

/-- R62, R66: `enc.dman` completes; the first slot of symbol `i` is DMAN_INIT flipped once for every ONE
before it and once more when symbol `i` is ZERO, and the second slot is its negation. -/
def Obligations.DiffManchesterEncodes : Prop :=
  ∀ (s : State) (xs : List Symbol), s.LineReady xs →
    ∃ t, exec .encDman s = .next t ∧ (2 * xs.length < 2 ^ 32 → t.pulLen.toNat = 2 * xs.length) ∧
      (∀ i x, xs[i]? = some x →
        let p := s.cfg.dmanInit.flips (onesBefore xs i + if x = .zero then 1 else 0)
        t.pul.read (2 * i) = some (levelCode p.level) ∧
          t.pul.read (2 * i + 1) = some (levelCode p.neg.level)) ∧
      (∀ a, 2 * xs.length ≤ a → t.pul.read a = s.pul.read a) ∧
      t = { s with pul := t.pul, pulLen := t.pulLen, status := 2#2, errCause := 0#8 }

/-- R62, R67: `enc.ami` completes; ZERO gives NEUTRAL and ONE gives HIGH or LOW by the parity of the ONEs
before it. -/
def Obligations.AmiEncodes : Prop :=
  ∀ (s : State) (xs : List Symbol), s.LineReady xs →
    ∃ t, exec .encAmi s = .next t ∧ t.pulLen.toNat = xs.length ∧
      (∀ i, xs[i]? = some Symbol.zero → t.pul.read i = some 0b00#2) ∧
      (∀ i, xs[i]? = some Symbol.one → onesBefore xs i % 2 = 0 → t.pul.read i = some 0b01#2) ∧
      (∀ i, xs[i]? = some Symbol.one → onesBefore xs i % 2 = 1 → t.pul.read i = some 0b11#2) ∧
      (∀ a, xs.length ≤ a → t.pul.read a = s.pul.read a) ∧
      t = { s with pul := t.pul, pulLen := t.pulLen, status := 2#2, errCause := 0#8 }

/-- R62, R81, R39: when LINE_ENCODE does not complete, by the first of CAPACITY, EMPTY_INPUT and UNDEF_READ;
no output is written. -/
def Obligations.LineEncodeStops : Prop :=
  ∀ (s : State) (i : Instr), i = .encNrzl ∨ i = .encNrzi ∨ i = .encMan ∨ i = .encDman ∨ i = .encAmi →
    (s.cfg.nMax < s.symLen.toNat → exec i s = .next { s with status := 3#2, errCause := 3#8 }) ∧
    (s.symLen.toNat = 0 → exec i s = .next { s with status := 3#2, errCause := 4#8 }) ∧
    (s.symLen.toNat ≤ s.cfg.nMax → (∃ j, j < s.symLen.toNat ∧ s.sym.read j = none) →
      exec i s = .next { s with fault := some .undefRead })

/-- R68 items 1, 2, 3 and 5: the laws of NRZ-L, NRZ-I, Manchester and Differential Manchester. -/
def Obligations.TwoLevelCodeLaws : Prop :=
  ∀ (s : List Symbol) (d : Polarity),
    ((encNrzl s).length = s.length ∧
      ∀ i : Nat, ((encNrzl s)[i]? = some Level.high ↔ s[i]? = some Symbol.one) ∧
        ((encNrzl s)[i]? = some Level.low ↔ s[i]? = some Symbol.zero)) ∧
    ((encNrzi s).length = s.length ∧ ((encNrzi s)[0]? = some Level.high ↔ s[0]? = some Symbol.one) ∧
      ∀ i x, s[i + 1]? = some x →
        ((encNrzi s)[i + 1]? = (encNrzi s)[i]?.map Level.neg ↔ x = .one)) ∧
    ((encMan s).length = 2 * s.length ∧
      ∀ i, (encMan s)[2 * i]? = (encMan s)[2 * i + 1]?.map Level.neg) ∧
    ((encDman d s).length = 2 * s.length ∧
      ∀ i, (encDman d s)[2 * i]? = (encDman d s)[2 * i + 1]?.map Level.neg) ∧
    Level.neutral ∉ encNrzl s ∧ Level.neutral ∉ encNrzi s ∧ Level.neutral ∉ encMan s ∧
      Level.neutral ∉ encDman d s

/-- R68 item 4: the nonzero slots of an AMI train alternate from HIGH on, and the HIGHs are as many as the
LOWs or one more. -/
def Obligations.AmiAlternates : Prop :=
  ∀ s : List Symbol,
    (encAmi s).length = s.length ∧ (∀ i : Nat, (encAmi s)[i]? = some Level.neutral ↔ s[i]? = some Symbol.zero) ∧
    (∀ (k : Nat) (x : Level), ((encAmi s).filter (fun y => decide (y ≠ .neutral)))[k]? = some x →
      x = if k % 2 = 0 then .high else .low) ∧
    ((encAmi s).count .high = (encAmi s).count .low ∨
      (encAmi s).count .high = (encAmi s).count .low + 1)

/-! ### SCRAMBLE -/

/-- R69, R70: `scr.b8zs` completes on the AMI train of its symbols; each slot is the one `b8zsSlot` gives by
position, and nothing but PUL[0..n-1], STATUS and ERRCAUSE changes. -/
def Obligations.B8zsScrambles : Prop :=
  ∀ (s : State) (xs : List Symbol), s.ScrambleReady xs →
    ∃ t, exec .scrB8zs s = .next t ∧
      (∀ i, i < xs.length → t.pul.read i = some (levelCode (b8zsSlot s.cfg.b8zsFirstSign xs i))) ∧
      (∀ a, xs.length ≤ a → t.pul.read a = s.pul.read a) ∧
      t = { s with pul := t.pul, status := 2#2, errCause := 0#8 }

/-- R69, R71, R72 item 5: `scr.hdb3` completes on the AMI train of its symbols; each slot is the one
`hdb3Slot` gives by position and by the last nonzero pulse before it, and nothing but PUL[0..n-1], STATUS
and ERRCAUSE changes. -/
def Obligations.Hdb3Scrambles : Prop :=
  ∀ (s : State) (xs : List Symbol), s.ScrambleReady xs →
    ∃ (t : State) (out : List Level), exec .scrHdb3 s = .next t ∧ out.length = xs.length ∧
      (∀ i, i < xs.length → t.pul.read i = out[i]?.map levelCode) ∧
      (∀ i, i < xs.length → out[i]? = some (hdb3Slot s.cfg.hdb3EvenSign xs (lastPulse out i) i)) ∧
      (∀ a, xs.length ≤ a → t.pul.read a = s.pul.read a) ∧
      t = { s with pul := t.pul, status := 2#2, errCause := 0#8 }

/-- R69, R81: when SCRAMBLE does not complete, by the first of CAPACITY, EMPTY_INPUT, LENGTH_MISMATCH,
UNDEF_READ and NOT_AMI; no output is written. -/
def Obligations.ScrambleStops : Prop :=
  ∀ (s : State) (i : Instr), i = .scrB8zs ∨ i = .scrHdb3 →
    (s.cfg.nMax < s.symLen.toNat ∨ 2 * s.cfg.nMax < s.pulLen.toNat →
      exec i s = .next { s with status := 3#2, errCause := 3#8 }) ∧
    (s.pulLen.toNat ≤ 2 * s.cfg.nMax → s.symLen.toNat = 0 →
      exec i s = .next { s with status := 3#2, errCause := 4#8 }) ∧
    (0 < s.symLen.toNat → s.symLen.toNat ≤ s.cfg.nMax → s.pulLen.toNat ≤ 2 * s.cfg.nMax →
      s.pulLen ≠ s.symLen → exec i s = .next { s with status := 3#2, errCause := 9#8 }) ∧
    (s.symLen.toNat ≤ s.cfg.nMax → s.pulLen = s.symLen →
      (∃ j, j < s.symLen.toNat ∧ (s.sym.read j = none ∨ s.pul.read j = none)) →
      exec i s = .next { s with fault := some .undefRead }) ∧
    (∀ xs, s.LineReady xs → s.pulLen = s.symLen →
      (∀ j, j < xs.length → s.pul.read j ≠ none) →
      (∃ j, j < xs.length ∧ s.pul.read j ≠ some (levelCode (amiSlot xs j))) →
      exec i s = .next { s with status := 3#2, errCause := 10#8 })

/-- R72 item 2: with no run of 8 ZEROs B8ZS, and with no run of 4 ZEROs HDB3, gives the input train back. -/
def Obligations.ShortRunsAreUntouched : Prop :=
  ∀ s : List Symbol,
    (∀ first, (∀ i, zerosEndingAt s i < 8) → scrB8zs first s = encAmi s) ∧
    (∀ even, (∀ i, zerosEndingAt s i < 4) → scrHdb3 even s = encAmi s)

/-- R72 items 1 and 3: a scrambled train is as long as its symbols, has no 8 NEUTRAL slots in a row after
B8ZS, and no 4 after HDB3. -/
def Obligations.ZeroRunsAreBounded : Prop :=
  ∀ (s : List Symbol) (first : Polarity) (even : EvenSign),
    (scrB8zs first s).length = s.length ∧ (scrHdb3 even s).length = s.length ∧
    (∀ i, ¬ ∀ k, k < 8 → (scrB8zs first s)[i + k]? = some Level.neutral) ∧
    (∀ i, ¬ ∀ k, k < 4 → (scrHdb3 even s)[i + k]? = some Level.neutral)

/-- R72 item 5: under OPPOSITE the offset-3 pulses of successive HDB3 substitutions alternate in sign. -/
def Obligations.Hdb3ViolationsAlternate : Prop :=
  ∀ (s : List Symbol) (e f : Nat), e < f → blockEnds 4 s e = true → blockEnds 4 s f = true →
    (∀ k, e < k → k < f → blockEnds 4 s k = false) →
      ∃ p : Polarity, (scrHdb3 .opposite s)[e]? = some p.level ∧
        (scrHdb3 .opposite s)[f]? = some p.neg.level

/-- R97, R101: after `enc.ami` completes on `xs`, the state is ready for a SCRAMBLE of `xs`. -/
def Obligations.AmiPreparesScramble : Prop :=
  ∀ (s : State) (xs : List Symbol), s.LineReady xs →
    ∃ t, exec .encAmi s = .next t ∧ t.ScrambleReady xs ∧ t.status = 2#2

/-- R69: a second SCRAMBLE, of either scheme, after one that changed the train is refused with NOT_AMI and
changes nothing else. -/
def Obligations.SecondScrambleIsRefused : Prop :=
  ∀ (s : State) (xs : List Symbol) (i j : Instr), s.ScrambleReady xs →
    (i = .scrB8zs ∧ scrB8zs s.cfg.b8zsFirstSign xs ≠ encAmi xs ∨
      i = .scrHdb3 ∧ scrHdb3 s.cfg.hdb3EvenSign xs ≠ encAmi xs) →
    j = .scrB8zs ∨ j = .scrHdb3 →
      ∃ t, exec i s = .next t ∧ t.status = 2#2 ∧
        exec j t = .next { t with status := 3#2, errCause := 10#8 }

/-! ### PCM_ENCODE and DM_ENCODE -/

/-- R74: `pcm` completes; the symbols of sample `j` are the bits of its level index, most significant first,
SYM_LEN is their number where 32 bits hold it (log entry 10), and nothing else changes. `mn` and `mx` are
any least and greatest samples: which of +0.0 and -0.0 is meant changes nothing. -/
def Obligations.PcmEncodes : Prop :=
  ∀ (s : State) (ws : List (BitVec 64)) (mn mx stp : F64), s.HoldsSamples ws →
    ws.length ≤ s.cfg.sMax → 1 ≤ s.bps.toNat → s.bps.toNat ≤ s.cfg.maxBps →
    ws.length * s.bps.toNat ≤ s.cfg.nMax →
    (∀ w ∈ ws, (F64.ofBits w).isFinite = true) →
    mn ∈ ws.map F64.ofBits → (∀ w ∈ ws, F64.flt (F64.ofBits w) mn = false) →
    mx ∈ ws.map F64.ofBits → (∀ w ∈ ws, F64.flt mx (F64.ofBits w) = false) →
    F64.feq mx mn = false → stp = F64.fdiv (F64.fsub mx mn) (F64.ofNat (2 ^ s.bps.toNat)) →
    stp.isFinite = true → F64.feq stp (.fin false 0) = false →
      ∃ t, exec .pcm s = .next t ∧
        (ws.length * s.bps.toNat < 2 ^ 32 → t.symLen.toNat = ws.length * s.bps.toNat) ∧
        (∀ j w, ws[j]? = some w →
          let q := min (F64.floor (F64.fdiv (F64.fsub (F64.ofBits w) mn) stp)).toNat (2 ^ s.bps.toNat - 1)
          ∀ u, u < s.bps.toNat →
            t.sym.read (j * s.bps.toNat + u) = some (BitVec.ofBool (q.testBit (s.bps.toNat - 1 - u)))) ∧
        (∀ a, ws.length * s.bps.toNat ≤ a → t.sym.read a = s.sym.read a) ∧
        t = { s with sym := t.sym, symLen := t.symLen, status := 2#2, errCause := 0#8 }

/-- R74, R81: when PCM_ENCODE does not complete, by the first failing check; no output is written. -/
def Obligations.PcmStops : Prop :=
  ∀ s : State,
    (s.cfg.sMax < s.smpLen.toNat → exec .pcm s = .next { s with status := 3#2, errCause := 3#8 }) ∧
    (s.smpLen.toNat = 0 → exec .pcm s = .next { s with status := 3#2, errCause := 4#8 }) ∧
    (0 < s.smpLen.toNat → s.smpLen.toNat ≤ s.cfg.sMax →
      (s.bps.toNat = 0 ∨ s.cfg.maxBps < s.bps.toNat →
        exec .pcm s = .next { s with status := 3#2, errCause := 5#8 }) ∧
      (0 < s.bps.toNat → s.bps.toNat ≤ s.cfg.maxBps →
        (s.cfg.nMax < s.smpLen.toNat * s.bps.toNat →
          exec .pcm s = .next { s with status := 3#2, errCause := 3#8 }) ∧
        (s.smpLen.toNat * s.bps.toNat ≤ s.cfg.nMax →
          ((∃ j, j < s.smpLen.toNat ∧ s.smp.read j = none) →
            exec .pcm s = .next { s with fault := some .undefRead }) ∧
          (∀ ws, s.HoldsSamples ws →
            ((∃ w ∈ ws, (F64.ofBits w).isFinite = false) →
              exec .pcm s = .next { s with status := 3#2, errCause := 6#8 }) ∧
            ((∀ w ∈ ws, (F64.ofBits w).isFinite = true) →
              ((∀ w ∈ ws, ∀ v ∈ ws, F64.feq (F64.ofBits w) (F64.ofBits v) = true) →
                exec .pcm s = .next { s with status := 3#2, errCause := 7#8 }) ∧
              (∀ mn mx stp, mn ∈ ws.map F64.ofBits → (∀ w ∈ ws, F64.flt (F64.ofBits w) mn = false) →
                mx ∈ ws.map F64.ofBits → (∀ w ∈ ws, F64.flt mx (F64.ofBits w) = false) →
                F64.feq mx mn = false →
                stp = F64.fdiv (F64.fsub mx mn) (F64.ofNat (2 ^ s.bps.toNat)) →
                stp.isFinite = false ∨ F64.feq stp (.fin false 0) = true →
                exec .pcm s = .next { s with status := 3#2, errCause := 8#8 }))))))

/-- R75, R76 items 2 and 3: a level index is below `2^b`, and the `b` symbols of an index, read back as an
unsigned binary number with the first symbol most significant, are the index. -/
def Obligations.PcmIndexReadsBack : Prop :=
  ∀ (b q : Nat) (mn stp x : F64),
    pcmIndex mn stp b x < 2 ^ b ∧
    (q < 2 ^ b → (indexSymbols b q).foldl (fun a y => 2 * a + (if y = .one then 1 else 0)) 0 = q)

/-- R75: every quotient that PCM takes the floor of is finite and at least 0. -/
def Obligations.PcmQuotientIsFinite : Prop :=
  ∀ (b : Nat) (mn mx x stp : F64), 1 ≤ b → b ≤ 32 →
    mn.isFinite = true → mx.isFinite = true → x.isFinite = true →
    F64.flt x mn = false → F64.flt mx x = false → F64.feq mx mn = false →
    stp = F64.fdiv (F64.fsub mx mn) (F64.ofNat (2 ^ b)) → stp.isFinite = true →
    F64.feq stp (.fin false 0) = false →
      (F64.fdiv (F64.fsub x mn) stp).isFinite = true ∧ 0 ≤ F64.floor (F64.fdiv (F64.fsub x mn) stp)

/-- R74, R76 item 4, for a step that is exact: the least sample has index 0 and the greatest has index
`2^b - 1`. (Where the step is rounded in the subnormal range R76 item 4 fails of R74; log entry 12.) -/
def Obligations.PcmExtremesOfAnExactStep : Prop :=
  ∀ (b m : Nat) (mn mx : F64), b ≤ 32 → 0 < m → mn.isFinite = true →
    F64.fsub mx mn = .fin false (m * 2 ^ b) →
    F64.fdiv (F64.fsub mx mn) (F64.ofNat (2 ^ b)) = .fin false m →
      pcmIndex mn (.fin false m) b mx = 2 ^ b - 1 ∧ pcmIndex mn (.fin false m) b mn = 0

/-- R38, R60: a 64-bit pattern that is no NaN is the pattern of its own value, so that no bit of a sample is
dropped and no two patterns share a value. -/
def Obligations.SampleBitsReadBack : Prop :=
  ∀ x : BitVec 64, F64.ofBits x ≠ .nan → (F64.ofBits x).toBits = some x

/-- R12, R75: rounding gives a representable value, none is nearer, and in a tie the significand is even. -/
def Obligations.RoundingIsNearestEven : Prop :=
  ∀ (n n' : Bool) (num den mag : Nat), 0 < den → F64.round n num den = .fin n' mag →
    n' = n ∧ F64.Representable mag ∧
    ∀ v, F64.Representable v →
      ((num : Int) - mag * den).natAbs ≤ ((num : Int) - v * den).natAbs ∧
      (v ≠ mag → ((num : Int) - mag * den).natAbs = ((num : Int) - v * den).natAbs →
        mag % (2 * 2 ^ F64.ulpExp num den) = 0)

/-- R77: `dm` completes, on no sample at all too; symbol `j` is ONE exactly when sample `j` is above the
prediction, which is 0.5 * (ONEs so far - ZEROs so far) exactly; SYM_LEN is the number of samples, and
nothing else changes. -/
def Obligations.DmEncodes : Prop :=
  ∀ (s : State) (ws : List (BitVec 64)), s.HoldsSamples ws → ws.length ≤ s.cfg.sMax →
    ws.length ≤ s.cfg.nMax →
      ∃ (t : State) (ys : List Symbol), exec .dm s = .next t ∧ t.symLen.toNat = ws.length ∧
        ys.length = ws.length ∧ (∀ j y, ys[j]? = some y → t.sym.read j = some (symbolBit y)) ∧
        (∀ j w, ws[j]? = some w →
          (ys[j]? = some Symbol.one ↔
            F64.fgt (F64.ofBits w) (F64.halves (2 * (onesBefore ys j : Int) - j)) = true)) ∧
        (∀ a, ws.length ≤ a → t.sym.read a = s.sym.read a) ∧
        t = { s with sym := t.sym, symLen := t.symLen, status := 2#2, errCause := 0#8 }

/-- R77, R81, R39: when DM_ENCODE does not complete, and that otherwise it ends in success, so that it has no
other error. -/
def Obligations.DmStops : Prop :=
  ∀ s : State,
    (s.cfg.sMax < s.smpLen.toNat ∨ s.cfg.nMax < s.smpLen.toNat →
      exec .dm s = .next { s with status := 3#2, errCause := 3#8 }) ∧
    (s.smpLen.toNat ≤ s.cfg.sMax → s.smpLen.toNat ≤ s.cfg.nMax →
      (∃ j, j < s.smpLen.toNat ∧ s.smp.read j = none) → exec .dm s = .next { s with fault := some .undefRead }) ∧
    (s.smpLen.toNat ≤ s.cfg.sMax → s.smpLen.toNat ≤ s.cfg.nMax →
      (∀ j, j < s.smpLen.toNat → s.smp.read j ≠ none) →
      ∃ t, exec .dm s = .next t ∧ t.status = 2#2 ∧ t.errCause = 0#8 ∧ t.fault = s.fault)

/-! ### The whole machine -/

/-- R82, R83, R84: a command ends in exactly one of three ways: with STATE = ERROR, the code of a cause and
nothing else changed; with STATE = DONE, CAUSE = NONE and no fault recorded by it; or with UNDEF_READ
recorded and nothing else changed. -/
def Obligations.CommandsEndInOneWay : Prop :=
  ∀ (i : Instr) (s : State),
    (∃ c : Cause, c.code ≠ 0#8 ∧ exec i s = .next { s with status := 3#2, errCause := c.code }) ∨
    (∃ t, exec i s = .next t ∧ t.status = 2#2 ∧ t.errCause = 0#8 ∧ t.fault = s.fault) ∨
    exec i s = .next { s with fault := some .undefRead }

/-- R41, R42: no command writes CMD, SMP, SMP_LEN, BPS or anything of the host's; LINE_ENCODE and SCRAMBLE
write no SYM and no SYM_LEN; SCRAMBLE writes no PUL_LEN; PCM_ENCODE and DM_ENCODE write no PUL and no PUL_LEN;
and of the buffer it writes, a command leaves every element at or above its output length as it was: `n`
slots of PUL, or `2n` for the transition schemes, and `k*BPS` or `k` symbols of SYM. -/
def Obligations.CommandsWriteOnlyTheirOutputs : Prop :=
  ∀ (i : Instr) (s t : State), exec i s = .next t →
    t.cfg = s.cfg ∧ t.cmd = s.cmd ∧ t.smp = s.smp ∧ t.smpLen = s.smpLen ∧ t.bps = s.bps ∧
      t.host = s.host ∧ t.got = s.got ∧
      (i ≠ .pcm → i ≠ .dm → t.sym = s.sym ∧ t.symLen = s.symLen) ∧
      (i = .scrB8zs ∨ i = .scrHdb3 → t.pulLen = s.pulLen) ∧
      (i = .pcm ∨ i = .dm → t.pul = s.pul ∧ t.pulLen = s.pulLen) ∧
      (i = .encNrzl ∨ i = .encNrzi ∨ i = .encAmi ∨ i = .scrB8zs ∨ i = .scrHdb3 →
        ∀ a, s.symLen.toNat ≤ a → t.pul.read a = s.pul.read a) ∧
      (i = .encMan ∨ i = .encDman → ∀ a, 2 * s.symLen.toNat ≤ a → t.pul.read a = s.pul.read a) ∧
      (i = .pcm → ∀ a, s.smpLen.toNat * s.bps.toNat ≤ a → t.sym.read a = s.sym.read a) ∧
      (i = .dm → ∀ a, s.smpLen.toNat ≤ a → t.sym.read a = s.sym.read a)

/-- R41, R84: a command's end and its outputs depend on nothing but the inputs R41 lists and the parameters:
of two states that agree on them, a command fails in both with one cause, faults in both, or succeeds in both
with the same outputs. Where 32 bits cannot hold the output's length, the agreement of PUL_LEN or SYM_LEN is
the model's choice: the free value there is a function of the length alone (log entry 10). -/
def Obligations.CommandsDependOnlyOnTheirInputs : Prop :=
  ∀ (i : Instr) (s s' : State), inputsAgree i s s' →
    (∃ c : Cause, exec i s = .next { s with status := 3#2, errCause := c.code } ∧
      exec i s' = .next { s' with status := 3#2, errCause := c.code }) ∨
    (exec i s = .next { s with fault := some .undefRead } ∧
      exec i s' = .next { s' with fault := some .undefRead }) ∨
    (∃ t t', exec i s = .next t ∧ exec i s' = .next t' ∧ t.status = 2#2 ∧ t'.status = 2#2 ∧
      outputsAgree i t t')

/-- R39, R97: a command whose input elements are all defined records no fault. -/
def Obligations.DefinedInputsRecordNoFault : Prop :=
  ∀ (i : Instr) (s : State), s.inputsDefined i → ∃ t, exec i s = .next t ∧ t.fault = s.fault

/-- R85, R99: from a state of the invariant, a host action that keeps the host's duties records no fault, or
UNDEF_READ alone. -/
def Obligations.DutifulHostSeesOnlyUndefRead : Prop :=
  ∀ (s : State) (a : HostAction) (rest : List HostAction), s.Inv → s.fault = none →
    s.host = a :: rest → a.wf s.cfg = true →
      ∃ t, step s = .next t ∧ (t.fault = none ∨ t.fault = some .undefRead)

/-- R21, R22, R35, R40, R80: every step keeps the invariant, from every state that has it. -/
def Obligations.StepKeepsInvariant : Prop :=
  ∀ s t : State, s.Inv → step s = .next t → t.Inv

/-- R7, R34: the state after reset has the invariant, for every legal choice of the parameters. -/
def Obligations.InvariantAtReset : Prop :=
  State.reset.Inv ∧ ∀ (c : Config) (program : List HostAction), c.wf = true → (State.loaded c program).Inv

/-- R21, R22, R98: in no state that any host program reaches from reset is STATE BUSY, and STATE is ERROR exactly
when CAUSE is not NONE. -/
def Obligations.HostNeverSeesBusy : Prop :=
  ∀ (c : Config) (program : List HostAction) (s : State), c.wf = true → Runs (State.loaded c program) s →
    s.status ≠ 1#2 ∧ (s.status = 3#2 ↔ s.errCause ≠ 0#8) ∧ s.cfg = c
end

