-- ==== Sys2Proof/Laws/Memory.lean ====
section
/-!
SUPPORT. The laws of a buffer: reading after writing, one element and a run of elements, and the canonical
form and the capacity, which every memory operation keeps.
-/

namespace Sys2Proof.Machine

variable {w : Nat}

@[simp] theorem Memory.read_nil (i : Nat) : Memory.read ([] : Memory w) i = none := rfl

@[simp] theorem Memory.read_cons (j : Nat) (v : BitVec w) (m : Memory w) (i : Nat) :
    Memory.read ((j, v) :: m) i = if j = i then some v else Memory.read m i := rfl

/-- An index below every listed one is UNDEF. -/
theorem Memory.read_eq_none_of_rising {m : Memory w} {lo i : Nat} (h : Memory.risingFrom lo m = true)
    (hi : i < lo) : m.read i = none := by
  induction m generalizing lo with
  | nil => rfl
  | cons e m ih =>
    obtain ⟨j, v⟩ := e
    simp only [Memory.risingFrom, Bool.and_eq_true, decide_eq_true_eq] at h
    rw [Memory.read_cons, if_neg (by omega), ih h.2 (by omega)]

/-- A read after a write of the same element gives the value written. -/
@[simp] theorem Memory.read_write_same (m : Memory w) (i : Nat) (v : BitVec w) :
    (m.write i v).read i = some v := by
  induction m with
  | nil => simp [Memory.write]
  | cons e m ih =>
    obtain ⟨j, u⟩ := e
    simp only [Memory.write]
    split
    · simp
    · split
      · simp
      · rw [Memory.read_cons, if_neg (by omega), ih]

/-- A write leaves every other element alone. -/
theorem Memory.read_write_other (m : Memory w) {i a : Nat} (v : BitVec w) (h : a ≠ i) :
    (m.write i v).read a = m.read a := by
  induction m with
  | nil => simp [Memory.write, Ne.symm h]
  | cons e m ih =>
    obtain ⟨j, u⟩ := e
    simp only [Memory.write]
    split
    · rw [Memory.read_cons, if_neg (Ne.symm h)]
    · split
      · subst_vars
        rw [Memory.read_cons, Memory.read_cons, if_neg (Ne.symm h), if_neg (Ne.symm h)]
      · rw [Memory.read_cons, Memory.read_cons, ih]

theorem Memory.risingFrom_write {m : Memory w} {lo i : Nat} (v : BitVec w)
    (h : Memory.risingFrom lo m = true) (hi : lo ≤ i) : Memory.risingFrom lo (m.write i v) = true := by
  induction m generalizing lo with
  | nil => simp [Memory.write, Memory.risingFrom, hi]
  | cons e m ih =>
    obtain ⟨j, u⟩ := e
    simp only [Memory.risingFrom, Bool.and_eq_true, decide_eq_true_eq] at h
    simp only [Memory.write]
    split
    · simp [Memory.risingFrom, hi, h.2]; omega
    · split
      · subst_vars; simp [Memory.risingFrom, hi, h.2]
      · simp [Memory.risingFrom, h.1, ih h.2 (show j + 1 ≤ i by omega)]

/-- A write keeps the canonical form. -/
theorem Memory.wf_write {m : Memory w} (i : Nat) (v : BitVec w) (h : m.wf = true) :
    (m.write i v).wf = true :=
  Memory.risingFrom_write v h (Nat.zero_le i)

/-- A write below capacity keeps the buffer inside its capacity. -/
theorem Memory.within_write {m : Memory w} {cap i : Nat} (v : BitVec w) (h : m.within cap = true)
    (hi : i < cap) : (m.write i v).within cap = true := by
  induction m with
  | nil => simp [Memory.write, Memory.within, hi]
  | cons e m ih =>
    obtain ⟨j, u⟩ := e
    simp only [Memory.within, List.all_cons, Bool.and_eq_true, decide_eq_true_eq] at h ih
    simp only [Memory.write]
    split
    · simpa [Memory.within, hi] using h
    · split
      · simpa [Memory.within, hi] using h.2
      · simpa [Memory.within, h.1] using ih h.2

/-- A run of elements reads as `xs` exactly when each of them reads as the element of `xs` at its place. -/
theorem Memory.readFrom_eq_some_iff {m : Memory w} {start n : Nat} {xs : List (BitVec w)} :
    m.readFrom start n = some xs ↔ xs.length = n ∧ ∀ i, i < n → m.read (start + i) = xs[i]? := by
  induction n generalizing start xs with
  | zero => simp [Memory.readFrom, eq_comm]
  | succ n ih =>
    constructor
    · intro h
      simp only [Memory.readFrom] at h
      split at h
      · rename_i x ys hx hys
        cases h
        obtain ⟨hl, hr⟩ := ih.1 hys
        refine ⟨by simp [hl], fun i hi => ?_⟩
        cases i with
        | zero => simpa using hx
        | succ i => simpa [Nat.add_assoc, Nat.add_comm 1] using hr i (by omega)
      · cases h
    · rintro ⟨hl, hr⟩
      cases xs with
      | nil => cases hl
      | cons x ys =>
        have hx := hr 0 (by omega)
        have hys : m.readFrom (start + 1) n = some ys := by
          refine ih.2 ⟨by simpa using hl, fun i hi => ?_⟩
          simpa [Nat.add_assoc, Nat.add_comm 1] using hr (i + 1) (by omega)
        simp only [Nat.add_zero, List.getElem?_cons_zero] at hx
        simp [Memory.readFrom, hx, hys]

/-- A run of elements does not read exactly when one of them is UNDEF. -/
theorem Memory.readFrom_eq_none_iff {m : Memory w} {start n : Nat} :
    m.readFrom start n = none ↔ ∃ i, i < n ∧ m.read (start + i) = none := by
  induction n generalizing start with
  | zero => simp [Memory.readFrom]
  | succ n ih =>
    constructor
    · intro h
      cases hx : m.read start with
      | none => exact ⟨0, by omega, by simpa using hx⟩
      | some x =>
        cases hys : m.readFrom (start + 1) n with
        | none =>
          obtain ⟨i, hi, hr⟩ := ih.1 hys
          exact ⟨i + 1, by omega, by simpa [Nat.add_assoc, Nat.add_comm 1] using hr⟩
        | some ys => simp [Memory.readFrom, hx, hys] at h
    · rintro ⟨i, hi, hr⟩
      cases i with
      | zero =>
        simp only [Nat.add_zero] at hr
        simp [Memory.readFrom, hr]
      | succ i =>
        have hys : m.readFrom (start + 1) n = none :=
          ih.2 ⟨i, by omega, by simpa [Nat.add_assoc, Nat.add_comm 1] using hr⟩
        simp only [Memory.readFrom, hys]
        cases m.read start <;> rfl

/-- Writing a run of elements leaves every element before it alone. -/
theorem Memory.read_writeFrom_below {m : Memory w} {start a : Nat} {xs : List (BitVec w)} (h : a < start) :
    (m.writeFrom start xs).read a = m.read a := by
  induction xs generalizing m start with
  | nil => rfl
  | cons x xs ih =>
    rw [Memory.writeFrom, ih (by omega), Memory.read_write_other _ _ (by omega)]

/-- Writing a run of elements leaves every element after it alone. -/
theorem Memory.read_writeFrom_above {m : Memory w} {start a : Nat} {xs : List (BitVec w)}
    (h : start + xs.length ≤ a) : (m.writeFrom start xs).read a = m.read a := by
  induction xs generalizing m start with
  | nil => rfl
  | cons x xs ih =>
    simp only [List.length_cons] at h
    rw [Memory.writeFrom, ih (by omega), Memory.read_write_other _ _ (by omega)]

/-- Writing a run of elements puts each of them at its place. -/
theorem Memory.read_writeFrom {m : Memory w} {start i : Nat} {xs : List (BitVec w)} (h : i < xs.length) :
    (m.writeFrom start xs).read (start + i) = xs[i]? := by
  induction xs generalizing m start i with
  | nil => cases h
  | cons x xs ih =>
    cases i with
    | zero => rw [Memory.writeFrom, Memory.read_writeFrom_below (by omega)]; simp
    | succ i =>
      rw [Memory.writeFrom, show start + (i + 1) = start + 1 + i by omega, ih (by simpa using h)]
      simp

/-- Writing a run from index 0 on, read at any index. -/
theorem Memory.read_writeFrom_zero (m : Memory w) (xs : List (BitVec w)) (a : Nat) :
    (m.writeFrom 0 xs).read a = if a < xs.length then xs[a]? else m.read a := by
  split
  · rename_i h
    simpa using Memory.read_writeFrom (m := m) (start := 0) h
  · exact Memory.read_writeFrom_above (by omega)

/-- Writing a run of elements keeps the canonical form. -/
theorem Memory.wf_writeFrom {m : Memory w} (start : Nat) (xs : List (BitVec w)) (h : m.wf = true) :
    (m.writeFrom start xs).wf = true := by
  induction xs generalizing m start with
  | nil => exact h
  | cons x xs ih => exact ih _ (Memory.wf_write start x h)

/-- Writing a run of elements below capacity keeps the buffer inside its capacity. -/
theorem Memory.within_writeFrom {m : Memory w} {cap start : Nat} {xs : List (BitVec w)}
    (h : m.within cap = true) (hc : start + xs.length ≤ cap) : (m.writeFrom start xs).within cap = true := by
  induction xs generalizing m start with
  | nil => exact h
  | cons x xs ih =>
    simp only [List.length_cons] at hc
    exact ih (Memory.within_write x h (by omega)) (by omega)

/-- In canonical form an element is determined by its reads: buffers that read alike are equal. -/
theorem Memory.ext_of_risingFrom {m m' : Memory w} {lo : Nat} (h : Memory.risingFrom lo m = true)
    (h' : Memory.risingFrom lo m' = true) (hr : ∀ a, m.read a = m'.read a) : m = m' := by
  induction m generalizing m' lo with
  | nil =>
    cases m' with
    | nil => rfl
    | cons e m' => obtain ⟨j, v⟩ := e; simpa using hr j
  | cons e m ih =>
    obtain ⟨j, u⟩ := e
    cases m' with
    | nil => simpa using hr j
    | cons e' m' =>
      obtain ⟨j', u'⟩ := e'
      simp only [Memory.risingFrom, Bool.and_eq_true, decide_eq_true_eq] at h h'
      have hj : j = j' := by
        rcases Nat.lt_trichotomy j j' with hlt | heq | hgt
        · have := hr j
          rw [Memory.read_cons, Memory.read_cons, if_pos rfl, if_neg (by omega),
            Memory.read_eq_none_of_rising h'.2 (by omega)] at this
          cases this
        · exact heq
        · have := hr j'
          rw [Memory.read_cons, Memory.read_cons, if_pos rfl, if_neg (by omega),
            Memory.read_eq_none_of_rising h.2 (by omega)] at this
          cases this
      subst hj
      have hu : u = u' := by simpa using hr j
      subst hu
      congr 1
      refine ih h.2 h'.2 (fun a => ?_)
      rcases Nat.lt_or_ge a (j + 1) with hlt | hge
      · rw [Memory.read_eq_none_of_rising h.2 hlt, Memory.read_eq_none_of_rising h'.2 hlt]
      · have := hr a
        rwa [Memory.read_cons, Memory.read_cons, if_neg (by omega), if_neg (by omega)] at this

/-- Equal memories are equal data: two buffers in canonical form that read alike everywhere are one list. -/
theorem Memory.ext_of_wf {m m' : Memory w} (h : m.wf = true) (h' : m'.wf = true)
    (hr : ∀ a, m.read a = m'.read a) : m = m' :=
  Memory.ext_of_risingFrom h h' hr

end Sys2Proof.Machine
end

