-- ==== Sys2Proof/Laws/State.lean ====
section
/-!
SUPPORT. One lemma per field per update of the state, so that no proof unfolds a record update.
-/

namespace Sys2Proof.Machine

@[simp] theorem State.raiseInvalid_cfg (c : Cause) (s : State) : (s.raiseInvalid c).cfg = s.cfg := rfl
@[simp] theorem State.raiseInvalid_cmd (c : Cause) (s : State) : (s.raiseInvalid c).cmd = s.cmd := rfl
@[simp] theorem State.raiseInvalid_status (c : Cause) (s : State) : (s.raiseInvalid c).status = stateError := rfl
@[simp] theorem State.raiseInvalid_errCause (c : Cause) (s : State) : (s.raiseInvalid c).errCause = c.code := rfl
@[simp] theorem State.raiseInvalid_symLen (c : Cause) (s : State) : (s.raiseInvalid c).symLen = s.symLen := rfl
@[simp] theorem State.raiseInvalid_pulLen (c : Cause) (s : State) : (s.raiseInvalid c).pulLen = s.pulLen := rfl
@[simp] theorem State.raiseInvalid_smpLen (c : Cause) (s : State) : (s.raiseInvalid c).smpLen = s.smpLen := rfl
@[simp] theorem State.raiseInvalid_bps (c : Cause) (s : State) : (s.raiseInvalid c).bps = s.bps := rfl
@[simp] theorem State.raiseInvalid_sym (c : Cause) (s : State) : (s.raiseInvalid c).sym = s.sym := rfl
@[simp] theorem State.raiseInvalid_pul (c : Cause) (s : State) : (s.raiseInvalid c).pul = s.pul := rfl
@[simp] theorem State.raiseInvalid_smp (c : Cause) (s : State) : (s.raiseInvalid c).smp = s.smp := rfl
@[simp] theorem State.raiseInvalid_fault (c : Cause) (s : State) : (s.raiseInvalid c).fault = s.fault := rfl
@[simp] theorem State.raiseInvalid_host (c : Cause) (s : State) : (s.raiseInvalid c).host = s.host := rfl
@[simp] theorem State.raiseInvalid_got (c : Cause) (s : State) : (s.raiseInvalid c).got = s.got := rfl

@[simp] theorem State.complete_cfg (s : State) : s.complete.cfg = s.cfg := rfl
@[simp] theorem State.complete_cmd (s : State) : s.complete.cmd = s.cmd := rfl
@[simp] theorem State.complete_status (s : State) : s.complete.status = stateDone := rfl
@[simp] theorem State.complete_errCause (s : State) : s.complete.errCause = causeNone := rfl
@[simp] theorem State.complete_symLen (s : State) : s.complete.symLen = s.symLen := rfl
@[simp] theorem State.complete_pulLen (s : State) : s.complete.pulLen = s.pulLen := rfl
@[simp] theorem State.complete_smpLen (s : State) : s.complete.smpLen = s.smpLen := rfl
@[simp] theorem State.complete_bps (s : State) : s.complete.bps = s.bps := rfl
@[simp] theorem State.complete_sym (s : State) : s.complete.sym = s.sym := rfl
@[simp] theorem State.complete_pul (s : State) : s.complete.pul = s.pul := rfl
@[simp] theorem State.complete_smp (s : State) : s.complete.smp = s.smp := rfl
@[simp] theorem State.complete_fault (s : State) : s.complete.fault = s.fault := rfl
@[simp] theorem State.complete_host (s : State) : s.complete.host = s.host := rfl
@[simp] theorem State.complete_got (s : State) : s.complete.got = s.got := rfl

@[simp] theorem State.hostFault_cfg (r : HostFault) (s : State) : (s.hostFault r).cfg = s.cfg := rfl
@[simp] theorem State.hostFault_cmd (r : HostFault) (s : State) : (s.hostFault r).cmd = s.cmd := rfl
@[simp] theorem State.hostFault_status (r : HostFault) (s : State) : (s.hostFault r).status = s.status := rfl
@[simp] theorem State.hostFault_errCause (r : HostFault) (s : State) : (s.hostFault r).errCause = s.errCause := rfl
@[simp] theorem State.hostFault_symLen (r : HostFault) (s : State) : (s.hostFault r).symLen = s.symLen := rfl
@[simp] theorem State.hostFault_pulLen (r : HostFault) (s : State) : (s.hostFault r).pulLen = s.pulLen := rfl
@[simp] theorem State.hostFault_smpLen (r : HostFault) (s : State) : (s.hostFault r).smpLen = s.smpLen := rfl
@[simp] theorem State.hostFault_bps (r : HostFault) (s : State) : (s.hostFault r).bps = s.bps := rfl
@[simp] theorem State.hostFault_sym (r : HostFault) (s : State) : (s.hostFault r).sym = s.sym := rfl
@[simp] theorem State.hostFault_pul (r : HostFault) (s : State) : (s.hostFault r).pul = s.pul := rfl
@[simp] theorem State.hostFault_smp (r : HostFault) (s : State) : (s.hostFault r).smp = s.smp := rfl
@[simp] theorem State.hostFault_fault (r : HostFault) (s : State) : (s.hostFault r).fault = some r := rfl
@[simp] theorem State.hostFault_host (r : HostFault) (s : State) : (s.hostFault r).host = s.host := rfl
@[simp] theorem State.hostFault_got (r : HostFault) (s : State) : (s.hostFault r).got = s.got := rfl

@[simp] theorem State.putTrain_cfg (s : State) (p : List Level) : (s.putTrain p).cfg = s.cfg := rfl
@[simp] theorem State.putTrain_cmd (s : State) (p : List Level) : (s.putTrain p).cmd = s.cmd := rfl
@[simp] theorem State.putTrain_status (s : State) (p : List Level) : (s.putTrain p).status = s.status := rfl
@[simp] theorem State.putTrain_errCause (s : State) (p : List Level) : (s.putTrain p).errCause = s.errCause := rfl
@[simp] theorem State.putTrain_symLen (s : State) (p : List Level) : (s.putTrain p).symLen = s.symLen := rfl
@[simp] theorem State.putTrain_pulLen (s : State) (p : List Level) : (s.putTrain p).pulLen = lengthWord p.length := rfl
@[simp] theorem State.putTrain_smpLen (s : State) (p : List Level) : (s.putTrain p).smpLen = s.smpLen := rfl
@[simp] theorem State.putTrain_bps (s : State) (p : List Level) : (s.putTrain p).bps = s.bps := rfl
@[simp] theorem State.putTrain_sym (s : State) (p : List Level) : (s.putTrain p).sym = s.sym := rfl
@[simp] theorem State.putTrain_pul (s : State) (p : List Level) : (s.putTrain p).pul = s.pul.writeFrom 0 (trainCodes p) := rfl
@[simp] theorem State.putTrain_smp (s : State) (p : List Level) : (s.putTrain p).smp = s.smp := rfl
@[simp] theorem State.putTrain_fault (s : State) (p : List Level) : (s.putTrain p).fault = s.fault := rfl
@[simp] theorem State.putTrain_host (s : State) (p : List Level) : (s.putTrain p).host = s.host := rfl
@[simp] theorem State.putTrain_got (s : State) (p : List Level) : (s.putTrain p).got = s.got := rfl

@[simp] theorem State.rewriteTrain_cfg (s : State) (p : List Level) : (s.rewriteTrain p).cfg = s.cfg := rfl
@[simp] theorem State.rewriteTrain_cmd (s : State) (p : List Level) : (s.rewriteTrain p).cmd = s.cmd := rfl
@[simp] theorem State.rewriteTrain_status (s : State) (p : List Level) : (s.rewriteTrain p).status = s.status := rfl
@[simp] theorem State.rewriteTrain_errCause (s : State) (p : List Level) : (s.rewriteTrain p).errCause = s.errCause := rfl
@[simp] theorem State.rewriteTrain_symLen (s : State) (p : List Level) : (s.rewriteTrain p).symLen = s.symLen := rfl
@[simp] theorem State.rewriteTrain_pulLen (s : State) (p : List Level) : (s.rewriteTrain p).pulLen = s.pulLen := rfl
@[simp] theorem State.rewriteTrain_smpLen (s : State) (p : List Level) : (s.rewriteTrain p).smpLen = s.smpLen := rfl
@[simp] theorem State.rewriteTrain_bps (s : State) (p : List Level) : (s.rewriteTrain p).bps = s.bps := rfl
@[simp] theorem State.rewriteTrain_sym (s : State) (p : List Level) : (s.rewriteTrain p).sym = s.sym := rfl
@[simp] theorem State.rewriteTrain_pul (s : State) (p : List Level) : (s.rewriteTrain p).pul = s.pul.writeFrom 0 (trainCodes p) := rfl
@[simp] theorem State.rewriteTrain_smp (s : State) (p : List Level) : (s.rewriteTrain p).smp = s.smp := rfl
@[simp] theorem State.rewriteTrain_fault (s : State) (p : List Level) : (s.rewriteTrain p).fault = s.fault := rfl
@[simp] theorem State.rewriteTrain_host (s : State) (p : List Level) : (s.rewriteTrain p).host = s.host := rfl
@[simp] theorem State.rewriteTrain_got (s : State) (p : List Level) : (s.rewriteTrain p).got = s.got := rfl

@[simp] theorem State.putSymbols_cfg (s : State) (y : List Symbol) : (s.putSymbols y).cfg = s.cfg := rfl
@[simp] theorem State.putSymbols_cmd (s : State) (y : List Symbol) : (s.putSymbols y).cmd = s.cmd := rfl
@[simp] theorem State.putSymbols_status (s : State) (y : List Symbol) : (s.putSymbols y).status = s.status := rfl
@[simp] theorem State.putSymbols_errCause (s : State) (y : List Symbol) : (s.putSymbols y).errCause = s.errCause := rfl
@[simp] theorem State.putSymbols_symLen (s : State) (y : List Symbol) : (s.putSymbols y).symLen = lengthWord y.length := rfl
@[simp] theorem State.putSymbols_pulLen (s : State) (y : List Symbol) : (s.putSymbols y).pulLen = s.pulLen := rfl
@[simp] theorem State.putSymbols_smpLen (s : State) (y : List Symbol) : (s.putSymbols y).smpLen = s.smpLen := rfl
@[simp] theorem State.putSymbols_bps (s : State) (y : List Symbol) : (s.putSymbols y).bps = s.bps := rfl
@[simp] theorem State.putSymbols_sym (s : State) (y : List Symbol) : (s.putSymbols y).sym = s.sym.writeFrom 0 (y.map symbolBit) := rfl
@[simp] theorem State.putSymbols_pul (s : State) (y : List Symbol) : (s.putSymbols y).pul = s.pul := rfl
@[simp] theorem State.putSymbols_smp (s : State) (y : List Symbol) : (s.putSymbols y).smp = s.smp := rfl
@[simp] theorem State.putSymbols_fault (s : State) (y : List Symbol) : (s.putSymbols y).fault = s.fault := rfl
@[simp] theorem State.putSymbols_host (s : State) (y : List Symbol) : (s.putSymbols y).host = s.host := rfl
@[simp] theorem State.putSymbols_got (s : State) (y : List Symbol) : (s.putSymbols y).got = s.got := rfl

@[simp] theorem State.reply_cfg (r : HostReply) (s : State) : (s.reply r).cfg = s.cfg := rfl
@[simp] theorem State.reply_cmd (r : HostReply) (s : State) : (s.reply r).cmd = s.cmd := rfl
@[simp] theorem State.reply_status (r : HostReply) (s : State) : (s.reply r).status = s.status := rfl
@[simp] theorem State.reply_errCause (r : HostReply) (s : State) : (s.reply r).errCause = s.errCause := rfl
@[simp] theorem State.reply_symLen (r : HostReply) (s : State) : (s.reply r).symLen = s.symLen := rfl
@[simp] theorem State.reply_pulLen (r : HostReply) (s : State) : (s.reply r).pulLen = s.pulLen := rfl
@[simp] theorem State.reply_smpLen (r : HostReply) (s : State) : (s.reply r).smpLen = s.smpLen := rfl
@[simp] theorem State.reply_bps (r : HostReply) (s : State) : (s.reply r).bps = s.bps := rfl
@[simp] theorem State.reply_sym (r : HostReply) (s : State) : (s.reply r).sym = s.sym := rfl
@[simp] theorem State.reply_pul (r : HostReply) (s : State) : (s.reply r).pul = s.pul := rfl
@[simp] theorem State.reply_smp (r : HostReply) (s : State) : (s.reply r).smp = s.smp := rfl
@[simp] theorem State.reply_fault (r : HostReply) (s : State) : (s.reply r).fault = s.fault := rfl
@[simp] theorem State.reply_host (r : HostReply) (s : State) : (s.reply r).host = s.host := rfl
@[simp] theorem State.reply_got (r : HostReply) (s : State) : (s.reply r).got = r :: s.got := rfl

@[simp] theorem State.resetBlock_cfg (s : State) : s.resetBlock.cfg = s.cfg := rfl
@[simp] theorem State.resetBlock_cmd (s : State) : s.resetBlock.cmd = 0#32 := rfl
@[simp] theorem State.resetBlock_status (s : State) : s.resetBlock.status = 0#2 := rfl
@[simp] theorem State.resetBlock_errCause (s : State) : s.resetBlock.errCause = 0#8 := rfl
@[simp] theorem State.resetBlock_symLen (s : State) : s.resetBlock.symLen = 0#32 := rfl
@[simp] theorem State.resetBlock_pulLen (s : State) : s.resetBlock.pulLen = 0#32 := rfl
@[simp] theorem State.resetBlock_smpLen (s : State) : s.resetBlock.smpLen = 0#32 := rfl
@[simp] theorem State.resetBlock_bps (s : State) : s.resetBlock.bps = 0#32 := rfl
@[simp] theorem State.resetBlock_sym (s : State) : s.resetBlock.sym = [] := rfl
@[simp] theorem State.resetBlock_pul (s : State) : s.resetBlock.pul = [] := rfl
@[simp] theorem State.resetBlock_smp (s : State) : s.resetBlock.smp = [] := rfl
@[simp] theorem State.resetBlock_fault (s : State) : s.resetBlock.fault = none := rfl
@[simp] theorem State.resetBlock_host (s : State) : s.resetBlock.host = s.host := rfl
@[simp] theorem State.resetBlock_got (s : State) : s.resetBlock.got = s.got := rfl

@[simp] theorem State.resetWith_cfg (c : Config) : (State.resetWith c).cfg = c := rfl
@[simp] theorem State.resetWith_cmd (c : Config) : (State.resetWith c).cmd = 0#32 := rfl
@[simp] theorem State.resetWith_status (c : Config) : (State.resetWith c).status = 0#2 := rfl
@[simp] theorem State.resetWith_errCause (c : Config) : (State.resetWith c).errCause = 0#8 := rfl
@[simp] theorem State.resetWith_symLen (c : Config) : (State.resetWith c).symLen = 0#32 := rfl
@[simp] theorem State.resetWith_pulLen (c : Config) : (State.resetWith c).pulLen = 0#32 := rfl
@[simp] theorem State.resetWith_smpLen (c : Config) : (State.resetWith c).smpLen = 0#32 := rfl
@[simp] theorem State.resetWith_bps (c : Config) : (State.resetWith c).bps = 0#32 := rfl
@[simp] theorem State.resetWith_sym (c : Config) : (State.resetWith c).sym = [] := rfl
@[simp] theorem State.resetWith_pul (c : Config) : (State.resetWith c).pul = [] := rfl
@[simp] theorem State.resetWith_smp (c : Config) : (State.resetWith c).smp = [] := rfl
@[simp] theorem State.resetWith_fault (c : Config) : (State.resetWith c).fault = none := rfl
@[simp] theorem State.resetWith_host (c : Config) : (State.resetWith c).host = [] := rfl
@[simp] theorem State.resetWith_got (c : Config) : (State.resetWith c).got = [] := rfl

/-- The update of `withFetchWord` is to the host's list alone. -/
@[simp] theorem State.withFetchWord_host (s : State) (nbits w : Nat) :
    (s.withFetchWord nbits w).host = .cmd (tableWord nbits w) :: s.host := rfl

@[simp] theorem State.withFetchWord_fault (s : State) (nbits w : Nat) :
    (s.withFetchWord nbits w).fault = s.fault := rfl

end Sys2Proof.Machine
end

