-- ==== Sys2Proof/Laws/Command.lean ====
section
/-!
SUPPORT. What the commands do, said once: the element encodings, the lengths of the trains, each operation's
input checks, the end of a command, and the form of a command's output.
-/

namespace Sys2Proof.Machine

/-! ### Element encodings -/

@[simp] theorem symbolOf_symbolBit (x : Symbol) : symbolOf (symbolBit x) = x := by cases x <;> decide

@[simp] theorem symbolBit_symbolOf (b : BitVec 1) : symbolBit (symbolOf b) = b := by
  revert b; decide

/-- `lvl` reads back what `enc` writes (R37). -/
@[simp] theorem levelOf_levelCode (x : Level) : levelOf (levelCode x) = some x := by cases x <;> decide

/-- `enc` is injective. -/
theorem levelCode_injective {x y : Level} (h : levelCode x = levelCode y) : x = y := by
  have := congrArg levelOf h
  simpa using this

/-- No level has the reserved code (R37). -/
theorem levelCode_ne_reserved (x : Level) : levelCode x ≠ 0b10#2 := by cases x <;> decide

@[simp] theorem trainCodes_length (p : List Level) : (trainCodes p).length = p.length := by simp [trainCodes]

@[simp] theorem trainCodes_getElem? (p : List Level) (i : Nat) :
    (trainCodes p)[i]? = p[i]?.map levelCode := by simp [trainCodes]

theorem trainCodes_injective {p q : List Level} (h : trainCodes p = trainCodes q) : p = q :=
  List.map_injective_iff.2 (fun _ _ => levelCode_injective) h

@[simp] theorem neg_neg_polarity (p : Polarity) : p.neg.neg = p := by cases p <;> rfl

@[simp] theorem neg_level (p : Polarity) : p.neg.level = p.level.neg := by cases p <;> rfl

@[simp] theorem neg_neg_level (x : Level) : x.neg.neg = x := by cases x <;> rfl

/-- A nonzero pulse is not NEUTRAL. -/
@[simp] theorem level_ne_neutral (p : Polarity) : p.level ≠ .neutral := by cases p <;> decide

/-! ### Lengths (R62, R69, R74, R77) -/

@[simp] theorem encNrzl_length (s : List Symbol) : (encNrzl s).length = s.length := by
  induction s with
  | nil => rfl
  | cons x s ih => cases x <;> simp [encNrzl, ih]

@[simp] theorem nrziFrom_length (p : Polarity) (s : List Symbol) : (nrziFrom p s).length = s.length := by
  induction s generalizing p with
  | nil => rfl
  | cons x s ih => cases x <;> simp [nrziFrom, ih]

@[simp] theorem encNrzi_length (s : List Symbol) : (encNrzi s).length = s.length := nrziFrom_length _ s

@[simp] theorem encMan_length (s : List Symbol) : (encMan s).length = 2 * s.length := by
  induction s with
  | nil => rfl
  | cons x s ih => cases x <;> simp [encMan, ih] <;> omega

@[simp] theorem dmanFrom_length (p : Polarity) (s : List Symbol) :
    (dmanFrom p s).length = 2 * s.length := by
  induction s generalizing p with
  | nil => rfl
  | cons x s ih => cases x <;> simp [dmanFrom, ih] <;> omega

@[simp] theorem encDman_length (p : Polarity) (s : List Symbol) :
    (encDman p s).length = 2 * s.length := dmanFrom_length p s

@[simp] theorem amiFrom_length (p : Polarity) (s : List Symbol) : (amiFrom p s).length = s.length := by
  induction s generalizing p with
  | nil => rfl
  | cons x s ih => cases x <;> simp [amiFrom, ih]

@[simp] theorem encAmi_length (s : List Symbol) : (encAmi s).length = s.length := amiFrom_length _ s

@[simp] theorem overwrite_length (out : List Level) (start : Nat) (p : List Level) :
    (overwrite out start p).length = out.length := by
  induction p generalizing out start with
  | nil => rfl
  | cons x p ih => simp [overwrite, ih]

theorem b8zsStep_out_length (first : Polarity) (z : B8zsScan) (x : Symbol) :
    (b8zsStep first z x).out.length = z.out.length := by
  cases x with
  | one => rfl
  | zero => simp only [b8zsStep]; split <;> simp

theorem hdb3Step_out_length (even : EvenSign) (z : Hdb3Scan) (x : Symbol) :
    (hdb3Step even z x).out.length = z.out.length := by
  cases x with
  | one => simp [hdb3Step]
  | zero =>
    simp only [hdb3Step]
    split
    · split <;> simp
    · rfl

theorem b8zsFold_out_length (first : Polarity) (s : List Symbol) (z : B8zsScan) :
    (s.foldl (b8zsStep first) z).out.length = z.out.length := by
  induction s generalizing z with
  | nil => rfl
  | cons x s ih => rw [List.foldl_cons, ih, b8zsStep_out_length]

theorem hdb3Fold_out_length (even : EvenSign) (s : List Symbol) (z : Hdb3Scan) :
    (s.foldl (hdb3Step even) z).out.length = z.out.length := by
  induction s generalizing z with
  | nil => rfl
  | cons x s ih => rw [List.foldl_cons, ih, hdb3Step_out_length]

/-- The length of a scrambled train (R69). -/
@[simp] theorem scrB8zs_length (first : Polarity) (s : List Symbol) :
    (scrB8zs first s).length = s.length := by
  simp [scrB8zs, b8zsFold_out_length]

@[simp] theorem scrHdb3_length (even : EvenSign) (s : List Symbol) :
    (scrHdb3 even s).length = s.length := by
  simp [scrHdb3, hdb3Fold_out_length]

@[simp] theorem indexSymbols_length (b q : Nat) : (indexSymbols b q).length = b := by simp [indexSymbols]

@[simp] theorem dmFrom_length (p : F64) (xs : List F64) : (dmFrom p xs).length = xs.length := by
  induction xs generalizing p with
  | nil => rfl
  | cons x xs ih => simp only [dmFrom]; split <;> simp [ih]

@[simp] theorem dmSymbols_length (xs : List F64) : (dmSymbols xs).length = xs.length := dmFrom_length _ xs

/-- What PCM makes of its samples has `b` symbols for each. -/
theorem pcmSymbols_length {b : Nat} {xs : List F64} {y : List Symbol} (h : pcmSymbols b xs = .ok y) :
    y.length = xs.length * b := by
  cases xs with
  | nil => simp [pcmSymbols] at h
  | cons x xs =>
    simp only [pcmSymbols] at h
    split at h
    · cases h
    · split at h
      · cases h
      · split at h
        · cases h
        · cases h
          simp [List.length_flatMap, Nat.add_mul]; omega

/-! ### Length registers -/

/-- A length that 32 bits can hold is what the register gets (R23, R24). -/
theorem lengthWord_toNat {n : Nat} (h : n < 2 ^ 32) : (lengthWord n).toNat = n := by
  simp only [lengthWord, if_pos h, BitVec.toNat_ofNat]
  omega

/-! ### Input checks -/

/-- The symbols of a range, element by element. -/
theorem State.symbols_eq_some_iff {s : State} {n : Nat} {syms : List Symbol} :
    s.symbols n = some syms ↔
      syms.length = n ∧ ∀ i, i < n → s.sym.read i = syms[i]?.map symbolBit := by
  constructor
  · intro h
    simp only [State.symbols, Option.map_eq_some_iff] at h
    obtain ⟨bits, hb, rfl⟩ := h
    obtain ⟨hl, hr⟩ := Memory.readFrom_eq_some_iff.1 hb
    refine ⟨by simpa using hl, fun i hi => ?_⟩
    have := hr i hi
    rw [Nat.zero_add] at this
    rw [this]
    simp [Option.map_map, Function.comp_def]
  · rintro ⟨hl, hr⟩
    have hb : s.sym.readFrom 0 n = some (syms.map symbolBit) :=
      Memory.readFrom_eq_some_iff.2 ⟨by simpa using hl, fun i hi => by simpa using hr i hi⟩
    simp [State.symbols, hb, Function.comp_def]

theorem State.symbols_eq_none_iff {s : State} {n : Nat} :
    s.symbols n = none ↔ ∃ i, i < n ∧ s.sym.read i = none := by
  simp [State.symbols, Memory.readFrom_eq_none_iff]

/-- LINE_ENCODE has its input exactly when the length is legal and every symbol is defined (R62, R81). -/
theorem lineInput_eq_ok_iff {s : State} {syms : List Symbol} :
    lineInput s = .ok syms ↔
      s.symLen.toNat ≤ s.cfg.nMax ∧ s.symLen.toNat ≠ 0 ∧ s.symbols s.symLen.toNat = some syms := by
  simp only [lineInput]
  split
  · simp; omega
  · split
    · simp_all
    · split <;> simp_all

/-- SCRAMBLE has its input exactly when the lengths are legal and equal, the elements are defined, and PUL
holds the reference train (R69, R81). -/
theorem scrambleInput_eq_ok_iff {ref : List Symbol → List Level} {s : State} {syms : List Symbol} :
    scrambleInput ref s = .ok syms ↔
      s.symLen.toNat ≤ s.cfg.nMax ∧ s.pulLen.toNat ≤ s.cfg.pMax ∧ s.symLen.toNat ≠ 0 ∧
        s.pulLen.toNat = s.symLen.toNat ∧ s.symbols s.symLen.toNat = some syms ∧
        s.pul.readFrom 0 s.symLen.toNat = some (trainCodes (ref syms)) := by
  simp only [scrambleInput]
  split
  · rename_i h
    simp only [reduceCtorEq, false_iff]
    omega
  · rename_i h
    push Not at h
    split
    · simp_all
    · split
      · simp_all
      · rename_i h0 hm
        simp only [ne_eq, Decidable.not_not] at hm
        split
        · rename_i y c hy hc
          split
          · rename_i he
            subst he
            constructor
            · intro h'
              cases h'
              exact ⟨h.1, h.2, h0, hm, hy, hc⟩
            · rintro ⟨-, -, -, -, h5, -⟩
              rw [hy] at h5
              cases h5
              rfl
          · rename_i he
            simp only [reduceCtorEq, false_iff]
            rintro ⟨-, -, -, -, h5, h6⟩
            rw [hy] at h5
            cases h5
            rw [hc] at h6
            cases h6
            exact he rfl
        · rename_i hn
          simp only [reduceCtorEq, false_iff]
          rintro ⟨-, -, -, -, h5, h6⟩
          exact hn _ _ h5 h6

/-- PCM_ENCODE has its input exactly when the lengths and BPS are legal and every sample is defined (R74, R81). -/
theorem pcmInput_eq_ok_iff {s : State} {xs : List (BitVec 64)} :
    pcmInput s = .ok xs ↔
      s.smpLen.toNat ≤ s.cfg.sMax ∧ s.smpLen.toNat ≠ 0 ∧ s.bps.toNat ≠ 0 ∧ s.bps.toNat ≤ s.cfg.maxBps ∧
        s.smpLen.toNat * s.bps.toNat ≤ s.cfg.nMax ∧ s.smp.readFrom 0 s.smpLen.toNat = some xs := by
  simp only [pcmInput]
  split
  · simp; omega
  · split
    · simp_all
    · split
      · rename_i h
        simp only [reduceCtorEq, false_iff]
        omega
      · rename_i h
        push Not at h
        split
        · simp only [reduceCtorEq, false_iff]
          omega
        · split <;> simp_all

/-- DM_ENCODE has its input exactly when the length is legal and every sample is defined (R77, R81). -/
theorem dmInput_eq_ok_iff {s : State} {xs : List (BitVec 64)} :
    dmInput s = .ok xs ↔
      s.smpLen.toNat ≤ s.cfg.sMax ∧ s.smpLen.toNat ≤ s.cfg.nMax ∧
        s.smp.readFrom 0 s.smpLen.toNat = some xs := by
  simp only [dmInput]
  split
  · rename_i h
    simp only [reduceCtorEq, false_iff]
    omega
  · rename_i h
    push Not at h
    split <;> simp_all

/-! ### The end of a command, and its output -/

/-- A command ends in exactly one of three ways, always in a next state (R82, R83, R85). -/
theorem endCommand_cases (s : State) (r : Except Stop State) :
    (∃ t, r = .ok t ∧ endCommand s r = .next t.complete) ∨
    (∃ c, r = .error (.invalid c) ∧ endCommand s r = .next (s.raiseInvalid c)) ∨
    (∃ f, r = .error (.fault f) ∧ endCommand s r = .next (s.hostFault f)) := by
  match r with
  | .ok t => exact .inl ⟨t, rfl, rfl⟩
  | .error (.invalid c) => exact .inr (.inl ⟨c, rfl, rfl⟩)
  | .error (.fault f) => exact .inr (.inr ⟨f, rfl, rfl⟩)

/-- What a command does before it ends: its outputs, or why it stops. -/
def commandResult (i : Instr) (s : State) : Except Stop State :=
  match i with
  | .encNrzl => (lineInput s).map (fun y => s.putTrain (encNrzl y))
  | .encNrzi => (lineInput s).map (fun y => s.putTrain (encNrzi y))
  | .encMan => (lineInput s).map (fun y => s.putTrain (encMan y))
  | .encDman => (lineInput s).map (fun y => s.putTrain (encDman s.cfg.dmanInit y))
  | .encAmi => (lineInput s).map (fun y => s.putTrain (encAmi y))
  | .scrB8zs => (scrambleInput encAmi s).map (fun y => s.rewriteTrain (scrB8zs s.cfg.b8zsFirstSign y))
  | .scrHdb3 => (scrambleInput encAmi s).map (fun y => s.rewriteTrain (scrHdb3 s.cfg.hdb3EvenSign y))
  | .pcm => pcmResult s
  | .dm => (dmInput s).map (fun xs => s.putSymbols (dmSymbols (xs.map F64.ofBits)))

/-- Every instruction is its result, ended. -/
theorem exec_eq_endCommand (i : Instr) (s : State) : exec i s = endCommand s (commandResult i s) := by
  cases i <;> rfl

theorem except_map_eq_ok {α β ε : Type} {e : Except ε α} {f : α → β} {b : β} (h : e.map f = .ok b) :
    ∃ a, e = .ok a ∧ f a = b := by
  cases e with
  | error e => cases h
  | ok a => exact ⟨a, rfl, by simpa [Except.map] using h⟩

theorem lineInput_length {s : State} {y : List Symbol} (h : lineInput s = .ok y) :
    y.length = s.symLen.toNat ∧ y.length ≤ s.cfg.nMax := by
  obtain ⟨h1, -, h3⟩ := lineInput_eq_ok_iff.1 h
  have := (State.symbols_eq_some_iff.1 h3).1
  omega

theorem scrambleInput_length {ref : List Symbol → List Level} {s : State} {y : List Symbol}
    (h : scrambleInput ref s = .ok y) : y.length = s.symLen.toNat ∧ y.length ≤ s.cfg.nMax := by
  obtain ⟨h1, -, -, -, h5, -⟩ := scrambleInput_eq_ok_iff.1 h
  have := (State.symbols_eq_some_iff.1 h5).1
  omega

/-- How many elements a command writes when it completes (R41). -/
def outputLength (i : Instr) (s : State) : Nat :=
  match i with
  | .encNrzl | .encNrzi | .encAmi | .scrB8zs | .scrHdb3 => s.symLen.toNat
  | .encMan | .encDman => 2 * s.symLen.toNat
  | .pcm => s.smpLen.toNat * s.bps.toNat
  | .dm => s.smpLen.toNat

/-- The output of a command that completes: a train put in PUL and PUL_LEN, a train put in PUL alone, or
symbols put in SYM and SYM_LEN, as long as R41 says and inside the buffer in each case. -/
theorem commandResult_ok_cases {i : Instr} {s t : State} (h : commandResult i s = .ok t) :
    ((i = .encNrzl ∨ i = .encNrzi ∨ i = .encMan ∨ i = .encDman ∨ i = .encAmi) ∧
      ∃ p, t = s.putTrain p ∧ p.length = outputLength i s ∧ p.length ≤ s.cfg.pMax) ∨
    ((i = .scrB8zs ∨ i = .scrHdb3) ∧
      ∃ p, t = s.rewriteTrain p ∧ p.length = outputLength i s ∧ p.length ≤ s.cfg.pMax) ∨
    ((i = .pcm ∨ i = .dm) ∧
      ∃ y, t = s.putSymbols y ∧ y.length = outputLength i s ∧ y.length ≤ s.cfg.nMax) := by
  have hp : s.cfg.pMax = 2 * s.cfg.nMax := rfl
  cases i with
  | encNrzl | encNrzi | encMan | encDman | encAmi =>
    obtain ⟨y, hy, rfl⟩ := except_map_eq_ok h
    have := lineInput_length hy
    exact .inl ⟨by simp, _, rfl, by simp [outputLength]; omega, by simp; omega⟩
  | scrB8zs | scrHdb3 =>
    obtain ⟨y, hy, rfl⟩ := except_map_eq_ok h
    have := scrambleInput_length hy
    exact .inr (.inl ⟨by simp, _, rfl, by simp [outputLength]; omega, by simp; omega⟩)
  | pcm =>
    simp only [commandResult, pcmResult] at h
    split at h
    · cases h
    · rename_i xs hx
      obtain ⟨y, hy, rfl⟩ := except_map_eq_ok h
      obtain ⟨-, -, -, -, h5, h6⟩ := pcmInput_eq_ok_iff.1 hx
      have hl := (Memory.readFrom_eq_some_iff.1 h6).1
      have := pcmSymbols_length hy
      have hy' : y.length = s.smpLen.toNat * s.bps.toNat := by rw [this, List.length_map, hl]
      exact .inr (.inr ⟨.inl rfl, y, rfl, hy', hy'.trans_le h5⟩)
  | dm =>
    obtain ⟨xs, hx, rfl⟩ := except_map_eq_ok h
    obtain ⟨-, h2, h3⟩ := dmInput_eq_ok_iff.1 hx
    have hl := (Memory.readFrom_eq_some_iff.1 h3).1
    exact .inr (.inr ⟨.inr rfl, _, rfl, by simp [outputLength, hl], by simpa [hl] using h2⟩)

/-- What a command can do, said once (R82, R83, R85). -/
theorem exec_cases (i : Instr) (s : State) :
    (∃ t, commandResult i s = .ok t ∧ exec i s = .next t.complete) ∨
    (∃ c, commandResult i s = .error (.invalid c) ∧ exec i s = .next (s.raiseInvalid c)) ∨
    (∃ f, commandResult i s = .error (.fault f) ∧ exec i s = .next (s.hostFault f)) := by
  rw [exec_eq_endCommand]
  exact endCommand_cases s _

end Sys2Proof.Machine
end

