-- ==== Sys2Proof/Laws/PerInstr.lean ====
section
/-!
SUPPORT. Statements about every instruction as syntax, one lemma per constructor.
-/

namespace Sys2Proof.Laws.EncodedFields

/-- The fields of an instruction's word are those of the tables R51 to R55: RSVD is zero, SCHEME and OP are
the instruction's own. -/
def Statement (i : Instr) : Prop :=
  rsvdField (encode i) = 0#24 ∧ schemeField (encode i) = schemeCode i ∧ opField (encode i) = opCode i

theorem encNrzl : Statement .encNrzl := by unfold Statement; decide
theorem encNrzi : Statement .encNrzi := by unfold Statement; decide
theorem encMan : Statement .encMan := by unfold Statement; decide
theorem encDman : Statement .encDman := by unfold Statement; decide
theorem encAmi : Statement .encAmi := by unfold Statement; decide
theorem scrB8zs : Statement .scrB8zs := by unfold Statement; decide
theorem scrHdb3 : Statement .scrHdb3 := by unfold Statement; decide
theorem pcm : Statement .pcm := by unfold Statement; decide
theorem dm : Statement .dm := by unfold Statement; decide

end Sys2Proof.Laws.EncodedFields
end

