-- ==== Sys2Proof/Laws/Ready.lean ====
section
/-!
SUPPORT. What a command needs of a state, said by position (Safety.lean), is what its input checks accept.
-/

namespace Sys2Proof.Machine

theorem State.holdsSymbols_iff {s : State} {xs : List Symbol} :
    s.HoldsSymbols xs ↔ s.symbols s.symLen.toNat = some xs := by
  rw [State.symbols_eq_some_iff, State.HoldsSymbols]
  constructor
  · rintro ⟨hl, hr⟩
    refine ⟨hl.symm, fun i hi => ?_⟩
    have hx := List.getElem?_eq_getElem (l := xs) (i := i) (by omega)
    rw [hx, hr i _ hx]
    rfl
  · rintro ⟨hl, hr⟩
    refine ⟨hl.symm, fun i x hx => ?_⟩
    have hi := (List.getElem?_eq_some_iff.1 hx).1
    rw [hr i (by omega), hx]
    rfl

theorem State.holdsTrain_iff {s : State} {p : List Level} :
    s.HoldsTrain p ↔ s.pul.readFrom 0 s.pulLen.toNat = some (trainCodes p) := by
  rw [Memory.readFrom_eq_some_iff, State.HoldsTrain, trainCodes_length]
  constructor
  · rintro ⟨hl, hr⟩
    refine ⟨hl.symm, fun i hi => ?_⟩
    have hx := List.getElem?_eq_getElem (l := p) (i := i) (by omega)
    rw [Nat.zero_add, trainCodes_getElem?, hx, hr i _ hx]
    rfl
  · rintro ⟨hl, hr⟩
    refine ⟨hl.symm, fun i x hx => ?_⟩
    have hi := (List.getElem?_eq_some_iff.1 hx).1
    have := hr i (by omega)
    rw [Nat.zero_add, trainCodes_getElem?, hx] at this
    exact this

theorem State.holdsSamples_iff {s : State} {ws : List (BitVec 64)} :
    s.HoldsSamples ws ↔ s.smp.readFrom 0 s.smpLen.toNat = some ws := by
  rw [Memory.readFrom_eq_some_iff, State.HoldsSamples]
  constructor
  · rintro ⟨hl, hr⟩
    refine ⟨hl.symm, fun i hi => ?_⟩
    have hx := List.getElem?_eq_getElem (l := ws) (i := i) (by omega)
    rw [Nat.zero_add, hx, hr i _ hx]
  · rintro ⟨hl, hr⟩
    refine ⟨hl.symm, fun i x hx => ?_⟩
    have hi := (List.getElem?_eq_some_iff.1 hx).1
    have := hr i (by omega)
    rwa [Nat.zero_add, hx] at this

/-- A state is ready for LINE_ENCODE of `xs` exactly when the input checks accept it with `xs` (R62, R81). -/
theorem State.lineReady_iff {s : State} {xs : List Symbol} : s.LineReady xs ↔ lineInput s = .ok xs := by
  rw [lineInput_eq_ok_iff, State.LineReady, State.holdsSymbols_iff]
  constructor
  · rintro ⟨h1, h2, h3⟩
    have hl := (State.symbols_eq_some_iff.1 h1).1
    have : xs.length ≠ 0 := fun h => h2 (List.length_eq_zero_iff.1 h)
    exact ⟨by omega, by omega, h1⟩
  · rintro ⟨h1, h2, h3⟩
    have hl := (State.symbols_eq_some_iff.1 h3).1
    exact ⟨h3, fun h => h2 (by rw [← hl, h]; rfl), by omega⟩

/-- A state is ready for SCRAMBLE of `xs` exactly when the input checks accept it with `xs` (R69, R81). -/
theorem State.scrambleReady_iff {s : State} {xs : List Symbol} :
    s.ScrambleReady xs ↔ scrambleInput encAmi s = .ok xs := by
  rw [scrambleInput_eq_ok_iff, State.ScrambleReady, State.lineReady_iff, lineInput_eq_ok_iff,
    State.holdsTrain_iff]
  constructor
  · rintro ⟨⟨h1, h2, h3⟩, h4⟩
    have hl := (State.symbols_eq_some_iff.1 h3).1
    have hm := (Memory.readFrom_eq_some_iff.1 h4).1
    rw [trainCodes_length, encAmi_length] at hm
    have he : s.pulLen.toNat = s.symLen.toNat := by omega
    refine ⟨h1, ?_, h2, he, h3, by rwa [he] at h4⟩
    simp only [Config.pMax]
    omega
  · rintro ⟨h1, -, h2, he, h3, h4⟩
    exact ⟨⟨h1, h2, h3⟩, by rwa [he]⟩

end Sys2Proof.Machine
end

