-- ==== Sys2Proof/Laws/Step.lean ====
section
/-!
SUPPORT. What a step can do, said once: the forms of a host action's effect, and the step around it.
-/

namespace Sys2Proof.Machine

/-- The forms a host action's effect can have: a model fault, a command, an illegal command word, a register
or element written, an element or register read, a reset (R99). -/
inductive HostEffect (s : State) : State → Prop where
  | fault (f : HostFault) : HostEffect s (s.hostFault f)
  | command (w : Word) (i : Instr) (t : State) (hd : decode w = .ok i)
      (he : exec i { s with cmd := w } = .next t) : HostEffect s t
  | illegal (w : Word) (e : Illegal) (hd : decode w = .error e) :
      HostEffect s (State.raiseInvalid (illegalCause e) { s with cmd := w })
  | symLen (v : Word) : HostEffect s { s with symLen := v }
  | pulLen (v : Word) : HostEffect s { s with pulLen := v }
  | smpLen (v : Word) : HostEffect s { s with smpLen := v }
  | bps (v : Word) : HostEffect s { s with bps := v }
  | sym (i : Nat) (b : BitVec 1) (hi : i < s.cfg.nMax) : HostEffect s { s with sym := s.sym.write i b }
  | pul (i : Nat) (c : BitVec 2) (hi : i < s.cfg.pMax) : HostEffect s { s with pul := s.pul.write i c }
  | smp (i : Nat) (x : BitVec 64) (hi : i < s.cfg.sMax) : HostEffect s { s with smp := s.smp.write i x }
  | reply (r : HostReply) : HostEffect s (s.reply r)
  | reset : HostEffect s s.resetBlock

theorem writeCmd_effect (w : Word) (s : State) : ∃ t, writeCmd w s = .next t ∧ HostEffect s t := by
  unfold writeCmd
  split
  · rename_i i hd
    rcases exec_cases i { s with cmd := w } with ⟨t, -, he⟩ | ⟨c, -, he⟩ | ⟨f, -, he⟩
    · exact ⟨_, he, .command w i _ hd he⟩
    · exact ⟨_, he, .command w i _ hd he⟩
    · exact ⟨_, he, .command w i _ hd he⟩
  · rename_i e hd
    exact ⟨_, rfl, .illegal w e hd⟩

theorem writeRegister_effect (reg : Nat) (v : Word) (s : State) :
    ∃ t, writeRegister reg v s = .next t ∧ HostEffect s t := by
  unfold writeRegister
  split
  · exact writeCmd_effect v s
  · exact ⟨_, rfl, .fault _⟩
  · exact ⟨_, rfl, .fault _⟩
  · exact ⟨_, rfl, .symLen v⟩
  · exact ⟨_, rfl, .pulLen v⟩
  · exact ⟨_, rfl, .smpLen v⟩
  · exact ⟨_, rfl, .bps v⟩
  · exact ⟨_, rfl, .fault _⟩

theorem readElement_effect {w : Nat} (cap : Nat) (m : Memory w) (i : Nat) (as : BitVec w → HostReply)
    (s : State) : ∃ t, readElement cap m i as s = .next t ∧ HostEffect s t := by
  unfold readElement
  split
  · split
    · exact ⟨_, rfl, .reply _⟩
    · exact ⟨_, rfl, .fault _⟩
  · exact ⟨_, rfl, .fault _⟩

/-- Every host action answers a next state of one of these forms. -/
theorem hostAct_effect (a : HostAction) (s : State) : ∃ t, hostAct a s = .next t ∧ HostEffect s t := by
  unfold hostAct
  split
  · exact ⟨_, rfl, .fault _⟩
  · cases a with
    | cmd w => exact writeCmd_effect w s
    | wr reg v => exact writeRegister_effect reg v s
    | rd reg =>
      simp only [hostAccess, readRegister]
      split
      · exact ⟨_, rfl, .reply _⟩
      · exact ⟨_, rfl, .fault _⟩
    | stSym i b =>
      simp only [hostAccess, writeElement]
      split
      · rename_i h; exact ⟨_, rfl, .sym i b h⟩
      · exact ⟨_, rfl, .fault _⟩
    | stPul i c =>
      simp only [hostAccess, writeElement]
      split
      · rename_i h; exact ⟨_, rfl, .pul i c h⟩
      · exact ⟨_, rfl, .fault _⟩
    | stSmp i x =>
      simp only [hostAccess, writeElement]
      split
      · rename_i h; exact ⟨_, rfl, .smp i x h⟩
      · exact ⟨_, rfl, .fault _⟩
    | ldSym i => exact readElement_effect _ _ _ _ _
    | ldPul i => exact readElement_effect _ _ _ _ _
    | ldSmp i => exact readElement_effect _ _ _ _ _
    | reset => exact ⟨_, rfl, .reset⟩

/-- The form of a host action that answered a next state. -/
theorem hostAct_next {a : HostAction} {s t : State} (h : hostAct a s = .next t) : HostEffect s t := by
  obtain ⟨u, hu, he⟩ := hostAct_effect a s
  rw [hu] at h
  cases h
  exact he

/-- What a step that answers a next state can do: nothing, when the run has ended, or one host action. -/
theorem step_next_cases {s t : State} (h : step s = .next t) :
    s.fault = none ∧
      ((s.host = [] ∧ t = s) ∨
        ∃ a rest, s.host = a :: rest ∧ hostAct a { s with host := rest } = .next t) := by
  unfold step at h
  split at h
  · cases h
  · rename_i hf
    refine ⟨hf, ?_⟩
    split at h
    · rename_i hh
      cases h
      exact .inl ⟨hh, rfl⟩
    · rename_i a rest hh
      exact .inr ⟨a, rest, hh, h⟩

/-- The step of a state whose next host action is `a`. -/
theorem step_action {s : State} {a : HostAction} {rest : List HostAction} (hf : s.fault = none)
    (hh : s.host = a :: rest) : step s = hostAct a { s with host := rest } := by
  simp [step, hf, hh]

end Sys2Proof.Machine
end

