-- ==== Sys2Proof/Tests/Slice0.lean ====
section
/-!
SUPPORT. The model's own tests. Expected values are those of spec/95_test_vectors.md and spec/90_conflicts.md
where a test names them, else worked out by hand from the rule a test names. The witnesses at the end give,
for each statement with hypotheses, a state and operands that meet them.
-/

namespace Sys2Proof.Machine

/-! ### Helpers -/

/-- A small block: N_MAX = 64, S_MAX = 16 and the defaults of R7. -/
def testConfig : Config :=
  { nMax := 64, sMax := 16, maxBps := 32, dmanInit := .low, b8zsFirstSign := .high, hdb3EvenSign := .opposite }

/-- A block of the smallest capacities. -/
def tinyConfig : Config := { testConfig with nMax := 1, sMax := 1 }

def testReset : State := State.resetWith testConfig

/-- The symbols of a list of bits. -/
def bitsOf (xs : List Nat) : List Symbol := xs.map (fun x => if x = 1 then Symbol.one else Symbol.zero)

/-- A block whose SYM holds `xs`. -/
def symState (xs : List Nat) : State := testReset.putSymbols (bitsOf xs)

/-- A block whose SYM holds `xs` and whose PUL holds `p`. -/
def trainState (xs : List Nat) (p : List Level) : State := (symState xs).putTrain p

/-- A block whose PUL holds the AMI train of its SYM. -/
def amiState (xs : List Nat) : State := trainState xs (encAmi (bitsOf xs))

/-- A block whose SMP holds `ws`, with BPS = `b`. -/
def smpState (b : Nat) (ws : List (BitVec 64)) : State :=
  { testReset with
    smp := Memory.writeFrom [] 0 ws
    smpLen := BitVec.ofNat 32 ws.length
    bps := BitVec.ofNat 32 b }

/-- A block with host actions to come. -/
def hostState (as : List HostAction) : State := { testReset with host := as }

def nextOf : Host.Outcome State Fault Refusal → Option State
  | .next s => some s
  | .fault _ => none
  | .refused _ => none

/-- PUL's listed codes, PUL_LEN, STATE and CAUSE after a command. -/
def pulseView (o : Host.Outcome State Fault Refusal) : Option (List (BitVec 2) × Word × BitVec 2 × BitVec 8) :=
  (nextOf o).map (fun s => (s.pul.map Prod.snd, s.pulLen, s.status, s.errCause))

/-- SYM's listed symbols, SYM_LEN, STATE and CAUSE after a command. -/
def symbolView (o : Host.Outcome State Fault Refusal) : Option (List (BitVec 1) × Word × BitVec 2 × BitVec 8) :=
  (nextOf o).map (fun s => (s.sym.map Prod.snd, s.symLen, s.status, s.errCause))

/-! ### Well-formedness: an ill-formed term for each check -/

theorem test_config_wf : testConfig.wf = true := by decide
theorem test_config_no_symbols : ({ testConfig with nMax := 0 } : Config).wf = false := by decide
theorem test_config_no_samples : ({ testConfig with sMax := 0 } : Config).wf = false := by decide
theorem test_config_no_bps : ({ testConfig with maxBps := 0 } : Config).wf = false := by decide
theorem test_config_wide_bps : ({ testConfig with maxBps := 33 } : Config).wf = false := by decide
theorem test_action_wf : (HostAction.wr 7 0#32).wf testConfig = false ∧ (HostAction.wr 1 0#32).wf testConfig = false ∧
    (HostAction.wr 2 0#32).wf testConfig = false ∧ (HostAction.rd 7).wf testConfig = false ∧
    (HostAction.stSym 64 0#1).wf testConfig = false ∧ (HostAction.ldSym 64).wf testConfig = false ∧
    (HostAction.stPul 128 0#2).wf testConfig = false ∧ (HostAction.ldPul 128).wf testConfig = false ∧
    (HostAction.stSmp 16 0#64).wf testConfig = false ∧ (HostAction.ldSmp 16).wf testConfig = false := by decide
theorem test_memory_wf : Memory.wf ([(1, 0#1), (1, 1#1)] : Memory 1) = false ∧
    Memory.wf ([(2, 0#1), (1, 1#1)] : Memory 1) = false ∧ Memory.wf ([(0, 0#1), (2, 1#1)] : Memory 1) = true := by
  decide

/-! ### Decoding: each word written out from the field tables of R51 to R55 (RSVD, SCHEME, OP) -/

theorem test_decode_nrzl : decode 0b000000000000000000000000_0000_0001#32 = .ok .encNrzl := rfl
theorem test_decode_nrzi : decode 0b000000000000000000000000_0001_0001#32 = .ok .encNrzi := rfl
theorem test_decode_man : decode 0b000000000000000000000000_0010_0001#32 = .ok .encMan := rfl
theorem test_decode_dman : decode 0b000000000000000000000000_0011_0001#32 = .ok .encDman := rfl
theorem test_decode_ami : decode 0b000000000000000000000000_0100_0001#32 = .ok .encAmi := rfl
theorem test_decode_b8zs : decode 0b000000000000000000000000_0000_0010#32 = .ok .scrB8zs := rfl
theorem test_decode_hdb3 : decode 0b000000000000000000000000_0001_0010#32 = .ok .scrHdb3 := rfl
theorem test_decode_pcm : decode 0b000000000000000000000000_0000_0011#32 = .ok .pcm := rfl
theorem test_decode_dm : decode 0b000000000000000000000000_0000_0100#32 = .ok .dm := rfl

/-- The illegal words of spec/95_test_vectors.md section 2.2. -/
theorem test_decode_illegal : decode 0x00000000#32 = .error .badOpcode ∧ decode 0x00000005#32 = .error .badOpcode ∧
    decode 0x0000000F#32 = .error .badOpcode ∧ decode 0x00000051#32 = .error .badScheme ∧
    decode 0x000000F1#32 = .error .badScheme ∧ decode 0x00000022#32 = .error .badScheme ∧
    decode 0x00000013#32 = .error .badScheme ∧ decode 0x00000014#32 = .error .badScheme ∧
    decode 0x00000101#32 = .error .badOpcode ∧ decode 0x80000041#32 = .error .badOpcode ∧
    decode 0x00000150#32 = .error .badOpcode := ⟨rfl, rfl, rfl, rfl, rfl, rfl, rfl, rfl, rfl, rfl, rfl⟩

theorem test_encode_ami : encode .encAmi = 0x00000041#32 := by decide
theorem test_table_word : decodeTableWord 32 0x12 = some .scrHdb3 ∧ decodeTableWord 32 0x22 = none := by decide

/-! ### LINE_ENCODE (spec/95_test_vectors.md sections 1 and 2.1; codes 01 HIGH, 11 LOW, 00 NEUTRAL) -/

theorem test_nrzl_1101 : pulseView (exec .encNrzl (symState [1, 1, 0, 1])) =
    some ([0b01, 0b01, 0b11, 0b01], 4, 2, 0) := by decide
theorem test_nrzi_0110 : pulseView (exec .encNrzi (symState [0, 1, 1, 0])) =
    some ([0b11, 0b01, 0b11, 0b11], 4, 2, 0) := by decide
theorem test_nrzi_1101 : pulseView (exec .encNrzi (symState [1, 1, 0, 1])) =
    some ([0b01, 0b11, 0b11, 0b01], 4, 2, 0) := by decide
theorem test_man_101 : pulseView (exec .encMan (symState [1, 0, 1])) =
    some ([0b11, 0b01, 0b01, 0b11, 0b11, 0b01], 6, 2, 0) := by decide
theorem test_dman_1101 : pulseView (exec .encDman (symState [1, 1, 0, 1])) =
    some ([0b11, 0b01, 0b01, 0b11, 0b01, 0b11, 0b11, 0b01], 8, 2, 0) := by decide

/-- The DMAN(H) column: DMAN_INIT = HIGH. -/
theorem test_dman_high_101 :
    pulseView (exec .encDman { symState [1, 0, 1] with cfg := { testConfig with dmanInit := .high } }) =
    some ([0b01, 0b11, 0b01, 0b11, 0b11, 0b01], 6, 2, 0) := by decide

/-- 90_conflicts.md C1: the rule's value, not the source's example. -/
theorem test_ami_1101 : pulseView (exec .encAmi (symState [1, 1, 0, 1])) =
    some ([0b01, 0b11, 0b00, 0b01], 4, 2, 0) := by decide
theorem test_ami_0110 : pulseView (exec .encAmi (symState [0, 1, 1, 0])) =
    some ([0b00, 0b01, 0b11, 0b00], 4, 2, 0) := by decide
theorem test_nrzl_capacity : pulseView (exec .encNrzl { testReset with symLen := 65#32 }) =
    some ([], 0, 3, 3) := by decide

/-! ### SCRAMBLE (spec/95_test_vectors.md section 2.3) -/

theorem test_b8zs_scrambles :
    pulseView (exec .scrB8zs (amiState [1, 1, 0, 0, 0, 0, 0, 0, 0, 0, 1])) =
      some ([0b01, 0b11, 0, 0, 0, 0b01, 0, 0, 0, 0b01, 0b01], 11, 2, 0) ∧
    pulseView (exec .scrB8zs (amiState [0, 0, 0, 0, 0, 0, 0, 0, 0, 0, 0, 0, 0, 0, 0, 0])) =
      some ([0, 0, 0, 0b01, 0, 0, 0, 0b01, 0, 0, 0, 0b11, 0, 0, 0, 0b11], 16, 2, 0) := by decide +kernel

/-- The source's own AMI example is no AMI train, and the reserved code 2'b10 is part of none: NOT_AMI
(90_conflicts.md C1, 93_implementation_defined.md row 15). -/
theorem test_b8zs_not_ami :
    pulseView (exec .scrB8zs (trainState [1, 1, 0, 1] [.high, .low, .neutral, .low])) =
      some ([0b01, 0b11, 0b00, 0b11], 4, 3, 10) ∧
    pulseView (exec .scrB8zs { symState [1] with pul := [(0, 0b10#2)], pulLen := 1#32 }) =
      some ([0b10], 1, 3, 10) := by decide

/-- The HDB3 column, and the HDB3(S) column: HDB3_EVEN_SIGN = SAME. -/
theorem test_hdb3_scrambles :
    pulseView (exec .scrHdb3 (amiState [1, 0, 1, 0, 0, 0, 0, 1, 0, 0, 0, 0, 1])) =
      some ([0b01, 0, 0b11, 0b01, 0, 0, 0b01, 0b11, 0, 0, 0, 0b11, 0b01], 13, 2, 0) ∧
    pulseView (exec .scrHdb3 { amiState [1, 1, 0, 0, 0, 0, 1] with cfg := { testConfig with hdb3EvenSign := .same } }) =
      some ([0b01, 0b11, 0b11, 0, 0, 0b11, 0b01], 7, 2, 0) := by decide +kernel
theorem test_hdb3_length_mismatch :
    pulseView (exec .scrHdb3 { symState [1, 0] with pulLen := 4#32 }) = some ([], 4, 3, 9) := by decide

/-! ### PCM_ENCODE and DM_ENCODE (spec/95_test_vectors.md sections 1, 2.4 and 2.5) -/

/-- The source's example S3: samples 0, 1, 2, 3 and BPS = 2. Then samples -0.5, 0.1, -0.2 and BPS = 1, where
binary64 and exact arithmetic differ in the last index. -/
theorem test_pcm_encodes :
    symbolView (exec .pcm (smpState 2
      [0x0000000000000000#64, 0x3FF0000000000000#64, 0x4000000000000000#64, 0x4008000000000000#64])) =
      some ([0, 0, 0, 1, 1, 0, 1, 1], 8, 2, 0) ∧
    symbolView (exec .pcm (smpState 1 [0xBFE0000000000000#64, 0x3FB999999999999A#64, 0xBFC999999999999A#64])) =
      some ([0, 1, 1], 3, 2, 0) := by decide +kernel

/-- Samples +0.0 and -0.0, then 0.0 and infinity. -/
theorem test_pcm_stops :
    symbolView (exec .pcm (smpState 2 [0x0000000000000000#64, 0x8000000000000000#64])) = some ([], 0, 3, 7) ∧
    symbolView (exec .pcm (smpState 2 [0x0000000000000000#64, 0x7FF0000000000000#64])) = some ([], 0, 3, 6) := by
  decide +kernel

/-- Samples 0 and 5 * 2^-1074, three bits: by R74 the step 5/8 of a unit rounds to one unit and the greatest
sample has index 5, not 7 (log entry 12). -/
theorem test_pcm_subnormal_step : pcmStep (.fin false 0) (.fin false 5) 3 = .fin false 1 ∧
    pcmIndex (.fin false 0) (.fin false 1) 3 (.fin false 5) = 5 := by decide +kernel

/-- Samples 0.25, 0.75, 1, 1, 0. -/
theorem test_dm_tracks : symbolView (exec .dm (smpState 0
      [0x3FD0000000000000#64, 0x3FE8000000000000#64, 0x3FF0000000000000#64, 0x3FF0000000000000#64,
       0x0000000000000000#64])) = some ([1, 1, 0, 1, 0], 5, 2, 0) := by decide +kernel

/-- Samples +infinity, -infinity and NaN: ONE, ZERO, ZERO. -/
theorem test_dm_nonfinite : symbolView (exec .dm (smpState 0
      [0x7FF0000000000000#64, 0xFFF0000000000000#64, 0x7FF8000000000000#64])) =
    some ([1, 0, 0], 3, 2, 0) := by decide +kernel

/-- 1.0 / 3.0 is 0x3FD5555555555555, and 0.1 + 0.2 is 0x3FD3333333333334 (IEEE 754). -/
theorem test_binary64_rounding :
    F64.fdiv (F64.ofBits 0x3FF0000000000000#64) (F64.ofBits 0x4008000000000000#64) =
      F64.ofBits 0x3FD5555555555555#64 ∧
    F64.fadd (F64.ofBits 0x3FB999999999999A#64) (F64.ofBits 0x3FC999999999999A#64) =
      F64.ofBits 0x3FD3333333333334#64 := by decide +kernel

/-- R60: the literals 0.1 and -5e-324 are 0x3FB999999999999A and 0x8000000000000001 (IEEE 754). -/
theorem test_decimal_literal : storeLiteral 0 false 1 (-1) = some (.stSmp 0 0x3FB999999999999A#64) ∧
    storeLiteral 0 true 5 (-324) = some (.stSmp 0 0x8000000000000001#64) := by decide +kernel
/-- R60, log entry 18: the literal -1e-400 rounds to zero and keeps its sign. -/
theorem test_decimal_literal_negative_zero :
    storeLiteral 0 true 1 (-400) = some (.stSmp 0 0x8000000000000000#64) := by decide +kernel
theorem test_level_name : storeLevel 3 .low = .stPul 3 0b11#2 := by decide

/-! ### One step (spec/95_test_vectors.md section 2.6) -/

def stepView (as : List HostAction) : Option (BitVec 2 × BitVec 8 × Option HostFault × List HostReply) :=
  (nextOf (step (hostState as))).map (fun s => (s.status, s.errCause, s.fault, s.got))

theorem test_step_rd_status : stepView [.rd 1] = some (0, 0, none, [.register 0#32]) := by decide
theorem test_step_ld_undef : stepView [.ldSym 0] = some (0, 0, some .undefRead, []) := by decide
theorem test_step_bad_register : stepView [.rd 7] = some (0, 0, some .badRegister, []) := by decide
theorem test_step_write_ro : stepView [.wr 1 0#32] = some (0, 0, some .writeRo, []) := by decide
theorem test_step_cmd_zero : stepView [.cmd 0#32] = some (3, 1, none, []) := by decide
theorem test_step_dm_empty : stepView [.wr 0 4#32] = some (2, 0, none, []) := by decide
theorem test_fetch_word_after_reset :
    (nextOf (step (State.reset.withFetchWord 32 0x11))).map (fun s => (s.cmd, s.status, s.errCause)) =
    some (0x11, 3, 4) := by decide

/-- P7 of spec/95_test_vectors.md: the fault is recorded, STATUS and ERRCAUSE are unchanged, CMD keeps the
word. -/
theorem test_undef_symbol : (nextOf (step { hostState [.cmd 1#32] with symLen := 1#32 })).map
    (fun s => (s.cmd, s.status, s.errCause, s.fault)) = some (1, 0, 0, some .undefRead) := by decide

/-! ### Witnesses of the statements' hypotheses -/

theorem test_witness_DecodeEncodeAgree : Instr.encNrzl.wf = true ∧ decode 0x00000001#32 = .ok .encNrzl := by decide

theorem test_witness_OnlyNineWordsAreLegal : (0x00000000#32 : Word) ∉ ([0x00000001#32, 0x00000011#32, 0x00000021#32,
      0x00000031#32, 0x00000041#32, 0x00000002#32, 0x00000012#32, 0x00000003#32, 0x00000004#32] : List Word) ∧
    (hostState [.cmd 0#32]).fault = none ∧ (hostState [.cmd 0#32]).status ≠ stateBusy ∧
    (hostState [.cmd 0#32]).host = [.cmd 0x00000000#32] := by decide

theorem test_witness_DecodeFollowsTheTable :
    (∃ w : Word, w.extractLsb' 8 24 ≠ 0#24) ∧
    (∃ w : Word, w.extractLsb' 8 24 = 0#24 ∧ w.extractLsb' 0 4 = 0x1#4 ∧ w.extractLsb' 4 4 = 0x4#4) ∧
    (∃ w : Word, w.extractLsb' 8 24 = 0#24 ∧ w.extractLsb' 0 4 = 0x1#4 ∧ 5 ≤ (w.extractLsb' 4 4).toNat) ∧
    (∃ w : Word, w.extractLsb' 8 24 = 0#24 ∧ w.extractLsb' 0 4 = 0x2#4 ∧ 2 ≤ (w.extractLsb' 4 4).toNat) ∧
    (∃ w : Word, w.extractLsb' 8 24 = 0#24 ∧ w.extractLsb' 0 4 = 0x3#4 ∧ w.extractLsb' 4 4 ≠ 0x0#4) ∧
    (∃ w : Word, w.extractLsb' 8 24 = 0#24 ∧ w.extractLsb' 0 4 = 0x4#4 ∧ w.extractLsb' 4 4 = 0x0#4) ∧
    (∃ w : Word, w.extractLsb' 8 24 = 0#24 ∧ 5 ≤ (w.extractLsb' 0 4).toNat) ∧
    (decode 0x00000051#32 = .error .badScheme ∧ (hostState [.cmd 0x51#32]).host = [.cmd 0x00000051#32]) :=
  ⟨⟨0x100#32, by decide⟩, ⟨0x41#32, by decide⟩, ⟨0x51#32, by decide⟩, ⟨0x22#32, by decide⟩, ⟨0x13#32, by decide⟩,
    ⟨0x04#32, by decide⟩, ⟨0x05#32, by decide⟩, by decide⟩

theorem test_witness_StepRunsTheWrittenCommand : (hostState [.cmd 1#32]).fault = none ∧
    (hostState [.cmd 1#32]).status ≠ stateBusy ∧ decode 1#32 = .ok .encNrzl ∧
    (hostState [.cmd 1#32]).host = [.cmd 1#32] ∧ (hostState [.wr 0 1#32]).host = [.wr 0 1#32] := by decide

theorem test_witness_FaultStopsTheMachine : ∃ s : State, s.fault = some .undefRead :=
  ⟨testReset.hostFault .undefRead, rfl⟩

theorem test_witness_EndedRunStays : testReset.fault = none ∧ testReset.host = [] := by decide

theorem test_witness_EveryStepAnswers : (hostState [.reset]).fault = none := by decide

theorem test_witness_ResetLeavesResetValues : (hostState [.reset]).fault = none ∧
    (hostState [.reset]).status ≠ stateBusy ∧ (hostState [.reset]).host = [.reset] := by decide

theorem test_witness_FirstCommandAfterReset : testConfig.wf = true ∧ Instr.pcm ≠ .dm := by decide

theorem test_witness_RegisterReads : ∀ n, n < 7 → ∃ (s : State) (v : Word), s.fault = none ∧
    s.status ≠ stateBusy ∧ s.host = [.rd n] ∧
      (n = 0 ∧ v = s.cmd ∨ n = 1 ∧ (v.extractLsb' 0 2 = s.status ∧ v.extractLsb' 2 30 = 0#30) ∨
        n = 2 ∧ (v.extractLsb' 0 8 = s.errCause ∧ v.extractLsb' 8 24 = 0#24) ∨
        n = 3 ∧ v = s.symLen ∨ n = 4 ∧ v = s.pulLen ∨ n = 5 ∧ v = s.smpLen ∨ n = 6 ∧ v = s.bps) := by
  intro n hn
  refine ⟨hostState [.rd n], 0#32, rfl, by show (0#2 : BitVec 2) ≠ stateBusy; decide, rfl, ?_⟩
  show n = 0 ∧ (0#32 : Word) = 0#32 ∨ n = 1 ∧ ((0#32 : Word).extractLsb' 0 2 = 0#2 ∧ (0#32 : Word).extractLsb' 2 30 = 0#30) ∨
    n = 2 ∧ ((0#32 : Word).extractLsb' 0 8 = 0#8 ∧ (0#32 : Word).extractLsb' 8 24 = 0#24) ∨
    n = 3 ∧ (0#32 : Word) = 0#32 ∨ n = 4 ∧ (0#32 : Word) = 0#32 ∨ n = 5 ∧ (0#32 : Word) = 0#32 ∨ n = 6 ∧ (0#32 : Word) = 0#32
  simp
  omega

theorem test_witness_RegisterAccessFaults : (hostState []).fault = none ∧ (hostState []).status ≠ stateBusy ∧
    (hostState [.rd 7]).host = [.rd 7] ∧ (hostState [.wr 7 0#32]).host = [.wr 7 0#32] ∧
    (hostState [.wr 1 0#32]).host = [.wr 1 0#32] ∧ (hostState [.wr 2 0#32]).host = [.wr 2 0#32] := by decide

theorem test_witness_LengthRegisterWrites : (hostState []).fault = none ∧ (hostState []).status ≠ stateBusy ∧
    (hostState [.wr 3 1#32]).host = [.wr 3 1#32] ∧ (hostState [.wr 4 1#32]).host = [.wr 4 1#32] ∧
    (hostState [.wr 5 1#32]).host = [.wr 5 1#32] ∧ (hostState [.wr 6 1#32]).host = [.wr 6 1#32] := by decide

theorem test_witness_ElementWriteThenRead : (hostState []).fault = none ∧ (hostState []).status ≠ stateBusy ∧
    63 < testReset.cfg.nMax ∧ 127 < 2 * testReset.cfg.nMax ∧ 15 < testReset.cfg.sMax ∧
    (hostState [.stSym 63 1#1, .ldSym 63]).host = [.stSym 63 1#1, .ldSym 63] ∧
    (hostState [.stPul 127 2#2, .ldPul 127]).host = [.stPul 127 2#2, .ldPul 127] ∧
    (hostState [.stSmp 15 1#64, .ldSmp 15]).host = [.stSmp 15 1#64, .ldSmp 15] := by decide

theorem test_witness_ElementAccessFaults : (hostState []).fault = none ∧ (hostState []).status ≠ stateBusy ∧
    testReset.cfg.nMax ≤ 64 ∧ 2 * testReset.cfg.nMax ≤ 128 ∧ testReset.cfg.sMax ≤ 16 ∧
    (hostState [.stSym 64 0#1]).host = [.stSym 64 0#1] ∧ (hostState [.ldPul 128]).host = [.ldPul 128] ∧
    (hostState [.ldSmp 16]).host = [.ldSmp 16] ∧
    63 < testReset.cfg.nMax ∧ testReset.sym.read 63 = none ∧ testReset.pul.read 127 = none ∧
    testReset.smp.read 15 = none := by decide

theorem test_witness_BusyAccessFaults : ∃ s : State, s.fault = none ∧ s.status = 1#2 ∧ s.host = [.cmd 1#32] ∧
    HostAction.cmd 1#32 ≠ .rd 1 ∧ HostAction.cmd 1#32 ≠ .reset :=
  ⟨{ hostState [.cmd 1#32] with status := 1#2 }, by decide⟩

theorem test_witness_BusyStatusReadAndReset :
    (∃ s : State, s.fault = none ∧ s.status = 1#2 ∧ s.host = [.rd 1]) ∧
    ∃ s : State, s.fault = none ∧ s.status = 1#2 ∧ s.host = [.reset] :=
  ⟨⟨{ hostState [.rd 1] with status := 1#2 }, by decide⟩, ⟨{ hostState [.reset] with status := 1#2 }, by decide⟩⟩

theorem test_witness_LdsymStoresItsSymbols : (hostState []).fault = none ∧ (hostState []).status ≠ stateBusy ∧
    [1#1, 0#1].length ≤ testReset.cfg.nMax ∧ [1#1, 0#1].length < 2 ^ 32 ∧
    (hostState [.stSym 0 1#1, .stSym 1 0#1, .wr 3 2#32]).host = (Pseudo.ldsym [1#1, 0#1]).expand ++ [] := by decide

/-- One symbol, the least that LINE_ENCODE takes, and N_MAX symbols, the most. -/
theorem test_witness_LineReady : (symState [1]).LineReady (bitsOf [1]) ∧
    ({ symState [1] with cfg := tinyConfig } : State).LineReady (bitsOf [1]) ∧
    (symState [1, 1, 0, 1]).LineReady (bitsOf [1, 1, 0, 1]) :=
  ⟨State.lineReady_iff.2 rfl, State.lineReady_iff.2 rfl, State.lineReady_iff.2 rfl⟩

theorem test_witness_NrzlEncodes : (symState [1, 0]).LineReady (bitsOf [1, 0]) ∧
    (bitsOf [1, 0])[0]? = some Symbol.one ∧ (bitsOf [1, 0])[1]? = some Symbol.zero :=
  ⟨State.lineReady_iff.2 rfl, rfl, rfl⟩

theorem test_witness_NrziEncodes : (symState [0, 1]).LineReady (bitsOf [0, 1]) ∧
    onesBefore (bitsOf [0, 1]) 1 % 2 = 0 ∧ onesBefore (bitsOf [0, 1]) 2 % 2 = 1 :=
  ⟨State.lineReady_iff.2 rfl, by decide, by decide⟩

theorem test_witness_ManchesterEncodes : (symState [1, 0]).LineReady (bitsOf [1, 0]) ∧
    2 * (bitsOf [1, 0]).length < 2 ^ 32 ∧ (bitsOf [1, 0])[0]? = some Symbol.one ∧
    (bitsOf [1, 0])[1]? = some Symbol.zero := ⟨State.lineReady_iff.2 rfl, by decide, rfl, rfl⟩

theorem test_witness_DiffManchesterEncodes : (symState [1, 0]).LineReady (bitsOf [1, 0]) ∧
    2 * (bitsOf [1, 0]).length < 2 ^ 32 ∧ (bitsOf [1, 0])[0]? = some Symbol.one ∧
    (bitsOf [1, 0])[1]? = some Symbol.zero := ⟨State.lineReady_iff.2 rfl, by decide, rfl, rfl⟩

theorem test_witness_AmiEncodes : (symState [1, 0, 1]).LineReady (bitsOf [1, 0, 1]) ∧
    (bitsOf [1, 0, 1])[0]? = some Symbol.one ∧ onesBefore (bitsOf [1, 0, 1]) 0 % 2 = 0 ∧
    (bitsOf [1, 0, 1])[1]? = some Symbol.zero ∧ (bitsOf [1, 0, 1])[2]? = some Symbol.one ∧
    onesBefore (bitsOf [1, 0, 1]) 2 % 2 = 1 :=
  ⟨State.lineReady_iff.2 rfl, rfl, by decide, rfl, rfl, by decide⟩

theorem test_witness_LineEncodeStops : (∃ s : State, s.cfg.nMax < s.symLen.toNat) ∧
    (∃ s : State, s.symLen.toNat = 0) ∧
    (∃ s : State, s.symLen.toNat ≤ s.cfg.nMax ∧ ∃ j, j < s.symLen.toNat ∧ s.sym.read j = none) :=
  ⟨⟨{ testReset with symLen := 65#32 }, by decide⟩, ⟨testReset, by decide⟩,
    ⟨{ testReset with symLen := 64#32 }, by decide, 63, by decide, rfl⟩⟩

theorem test_witness_TwoLevelCodeLaws : (bitsOf [1, 0])[0 + 1]? = some Symbol.zero := rfl

theorem test_witness_AmiAlternates :
    ((encAmi (bitsOf [1, 0, 1])).filter (fun y => decide (y ≠ .neutral)))[1]? = some Level.low := by decide

theorem test_witness_B8zsScrambles : (amiState [0, 0, 0, 0, 0, 0, 0, 0, 1]).ScrambleReady
    (bitsOf [0, 0, 0, 0, 0, 0, 0, 0, 1]) := State.scrambleReady_iff.2 rfl

theorem test_witness_Hdb3Scrambles : (amiState [1, 0, 0, 0, 0, 1]).ScrambleReady (bitsOf [1, 0, 0, 0, 0, 1]) :=
  State.scrambleReady_iff.2 rfl

theorem test_witness_ScrambleStops :
    (∃ s : State, s.cfg.nMax < s.symLen.toNat ∨ 2 * s.cfg.nMax < s.pulLen.toNat) ∧
    (∃ s : State, s.pulLen.toNat ≤ 2 * s.cfg.nMax ∧ s.symLen.toNat = 0) ∧
    (∃ s : State, 0 < s.symLen.toNat ∧ s.symLen.toNat ≤ s.cfg.nMax ∧ s.pulLen.toNat ≤ 2 * s.cfg.nMax ∧
      s.pulLen ≠ s.symLen) ∧
    (∃ s : State, s.symLen.toNat ≤ s.cfg.nMax ∧ s.pulLen = s.symLen ∧
      ∃ j, j < s.symLen.toNat ∧ (s.sym.read j = none ∨ s.pul.read j = none)) ∧
    (∃ (s : State) (xs : List Symbol), s.LineReady xs ∧ s.pulLen = s.symLen ∧
      (∀ j, j < xs.length → s.pul.read j ≠ none) ∧
      ∃ j, j < xs.length ∧ s.pul.read j ≠ some (levelCode (amiSlot xs j))) := by
  refine ⟨⟨{ testReset with pulLen := 129#32 }, by decide⟩, ⟨{ testReset with pulLen := 128#32 }, by decide⟩,
    ⟨{ testReset with symLen := 64#32, pulLen := 128#32 }, by decide⟩,
    ⟨{ symState [1] with pulLen := 1#32 }, by decide, rfl, 0, by decide, .inr rfl⟩,
    ⟨trainState [1] [.low], bitsOf [1], State.lineReady_iff.2 rfl, by decide, ?_, 0, by decide, by decide⟩⟩
  intro j hj
  have : j = 0 := by simp [bitsOf] at hj; omega
  subst this
  decide

/-- A sequence of one ONE has no run of ZEROs at all. -/
theorem test_witness_ShortRunsAreUntouched :
    (∀ i, zerosEndingAt [Symbol.one] i < 8) ∧ ∀ i, zerosEndingAt [Symbol.one] i < 4 := by
  have h : ∀ i, zerosEndingAt [Symbol.one] i = 0 := by
    intro i
    cases i <;> simp [zerosEndingAt]
  exact ⟨fun i => by simp [h i], fun i => by simp [h i]⟩

theorem test_witness_Hdb3ViolationsAlternate : ∃ (s : List Symbol) (e f : Nat), e < f ∧
    blockEnds 4 s e = true ∧ blockEnds 4 s f = true ∧ ∀ k, e < k → k < f → blockEnds 4 s k = false := by
  refine ⟨bitsOf [0, 0, 0, 0, 0, 0, 0, 0], 3, 7, by decide, by decide, by decide, ?_⟩
  intro k h1 h2
  have : k = 4 ∨ k = 5 ∨ k = 6 := by omega
  rcases this with rfl | rfl | rfl <;> decide

theorem test_witness_AmiPreparesScramble : (symState [0, 1]).LineReady (bitsOf [0, 1]) := State.lineReady_iff.2 rfl

theorem test_witness_SecondScrambleIsRefused :
    (amiState [0, 0, 0, 0, 0, 0, 0, 0]).ScrambleReady (bitsOf [0, 0, 0, 0, 0, 0, 0, 0]) ∧
    scrB8zs testConfig.b8zsFirstSign (bitsOf [0, 0, 0, 0, 0, 0, 0, 0]) ≠ encAmi (bitsOf [0, 0, 0, 0, 0, 0, 0, 0]) ∧
    scrHdb3 testConfig.hdb3EvenSign (bitsOf [0, 0, 0, 0, 0, 0, 0, 0]) ≠ encAmi (bitsOf [0, 0, 0, 0, 0, 0, 0, 0]) :=
  ⟨State.scrambleReady_iff.2 rfl, by decide, by decide⟩

/-- Samples 0.0 and 1.0, BPS = 1. -/
def twoSamples : List (BitVec 64) := [0x0000000000000000#64, 0x3FF0000000000000#64]

/-- What holds of both samples holds of every one. -/
theorem twoSamples_forall {p : BitVec 64 → Prop} (h0 : p 0x0000000000000000#64) (h1 : p 0x3FF0000000000000#64) :
    ∀ w ∈ twoSamples, p w := by
  simp [twoSamples, h0, h1]

theorem test_witness_PcmEncodes : ∃ mn mx stp : F64, (smpState 1 twoSamples).HoldsSamples twoSamples ∧
    twoSamples.length ≤ (smpState 1 twoSamples).cfg.sMax ∧ 1 ≤ (smpState 1 twoSamples).bps.toNat ∧
    (smpState 1 twoSamples).bps.toNat ≤ (smpState 1 twoSamples).cfg.maxBps ∧
    twoSamples.length * (smpState 1 twoSamples).bps.toNat ≤ (smpState 1 twoSamples).cfg.nMax ∧
    (∀ w ∈ twoSamples, (F64.ofBits w).isFinite = true) ∧
    mn ∈ twoSamples.map F64.ofBits ∧ (∀ w ∈ twoSamples, F64.flt (F64.ofBits w) mn = false) ∧
    mx ∈ twoSamples.map F64.ofBits ∧ (∀ w ∈ twoSamples, F64.flt mx (F64.ofBits w) = false) ∧
    F64.feq mx mn = false ∧
    stp = F64.fdiv (F64.fsub mx mn) (F64.ofNat (2 ^ (smpState 1 twoSamples).bps.toNat)) ∧
    stp.isFinite = true ∧ F64.feq stp (.fin false 0) = false :=
  ⟨F64.ofBits 0x0000000000000000#64, F64.ofBits 0x3FF0000000000000#64,
    pcmStep (F64.ofBits 0x0000000000000000#64) (F64.ofBits 0x3FF0000000000000#64) 1,
    State.holdsSamples_iff.2 rfl, by decide, by decide, by decide, by decide,
    twoSamples_forall (by decide +kernel) (by decide +kernel), List.mem_map_of_mem (by decide),
    twoSamples_forall (by decide +kernel) (by decide +kernel), List.mem_map_of_mem (by decide),
    twoSamples_forall (by decide +kernel) (by decide +kernel), by decide +kernel, by decide +kernel,
    by decide +kernel, by decide +kernel⟩

theorem test_witness_PcmStops :
    (∃ s : State, s.cfg.sMax < s.smpLen.toNat) ∧ (∃ s : State, s.smpLen.toNat = 0) ∧
    (∃ s : State, 0 < s.smpLen.toNat ∧ s.smpLen.toNat ≤ s.cfg.sMax ∧ s.bps.toNat = 0) ∧
    (∃ s : State, 0 < s.smpLen.toNat ∧ s.smpLen.toNat ≤ s.cfg.sMax ∧ s.cfg.maxBps < s.bps.toNat) ∧
    (∃ s : State, 0 < s.smpLen.toNat ∧ s.smpLen.toNat ≤ s.cfg.sMax ∧ 0 < s.bps.toNat ∧
      s.bps.toNat ≤ s.cfg.maxBps ∧ s.cfg.nMax < s.smpLen.toNat * s.bps.toNat) ∧
    (∃ s : State, 0 < s.smpLen.toNat ∧ s.smpLen.toNat ≤ s.cfg.sMax ∧ 0 < s.bps.toNat ∧
      s.bps.toNat ≤ s.cfg.maxBps ∧ s.smpLen.toNat * s.bps.toNat ≤ s.cfg.nMax ∧
      ∃ j, j < s.smpLen.toNat ∧ s.smp.read j = none) ∧
    ((smpState 2 [0x7FF0000000000000#64]).HoldsSamples [0x7FF0000000000000#64] ∧
      (F64.ofBits 0x7FF0000000000000#64).isFinite = false) ∧
    ((smpState 2 [0#64, 0#64]).HoldsSamples [0#64, 0#64] ∧
      F64.feq (F64.ofBits 0#64) (F64.ofBits 0#64) = true) ∧
    ((smpState 2 [0#64, 1#64]).HoldsSamples [0#64, 1#64] ∧ F64.feq (F64.ofBits 1#64) (F64.ofBits 0#64) = false ∧
      F64.feq (pcmStep (F64.ofBits 0#64) (F64.ofBits 1#64) 2) (.fin false 0) = true) :=
  ⟨⟨{ testReset with smpLen := 17#32 }, by decide⟩, ⟨testReset, by decide⟩,
    ⟨{ testReset with smpLen := 16#32 }, by decide⟩, ⟨{ testReset with smpLen := 1#32, bps := 33#32 }, by decide⟩,
    ⟨{ testReset with smpLen := 13#32, bps := 5#32 }, by decide⟩,
    ⟨{ testReset with smpLen := 2#32, bps := 32#32 }, by decide, by decide, by decide, by decide, by decide, 1,
      by decide, rfl⟩,
    ⟨State.holdsSamples_iff.2 rfl, by decide +kernel⟩, ⟨State.holdsSamples_iff.2 rfl, by decide +kernel⟩,
    ⟨State.holdsSamples_iff.2 rfl, by decide +kernel⟩⟩

theorem test_witness_SampleBitsReadBack : F64.ofBits 0x3FF0000000000000#64 ≠ .nan ∧
    F64.ofBits 0x000FFFFFFFFFFFFF#64 ≠ .nan ∧ F64.ofBits 0xFFF0000000000000#64 ≠ .nan ∧
    F64.ofBits 0x7FEFFFFFFFFFFFFF#64 ≠ .nan := by
  refine ⟨fun h => ?_, fun h => ?_, fun h => ?_, fun h => ?_⟩ <;> exact F64.noConfusion h

theorem test_witness_PcmIndexReadsBack : 3 < 2 ^ 2 := by decide

theorem test_witness_PcmQuotientIsFinite : ∃ mn mx x stp : F64, 1 ≤ 32 ∧ 32 ≤ 32 ∧
    mn.isFinite = true ∧ mx.isFinite = true ∧ x.isFinite = true ∧ F64.flt x mn = false ∧ F64.flt mx x = false ∧
    F64.feq mx mn = false ∧ stp = F64.fdiv (F64.fsub mx mn) (F64.ofNat (2 ^ 32)) ∧ stp.isFinite = true ∧
    F64.feq stp (.fin false 0) = false :=
  ⟨.fin false 0, .fin false F64.one, .fin false F64.one, pcmStep (.fin false 0) (.fin false F64.one) 32,
    by decide +kernel⟩

theorem test_witness_PcmExtremesOfAnExactStep :
    F64.fsub (.fin false 8) (.fin false 0) = .fin false (4 * 2 ^ 1) ∧
    F64.fdiv (F64.fsub (.fin false 8) (.fin false 0)) (F64.ofNat (2 ^ 1)) = .fin false 4 := by decide +kernel

/-- A tie: 3/2 units lies between 1 and 2 units, and the even one is taken. -/
theorem test_witness_RoundingIsNearestEven : 0 < 2 ∧ F64.round false 3 2 = .fin false 2 ∧ F64.Representable 1 ∧
    ((3 : Int) - (2 : Nat) * (2 : Nat)).natAbs = ((3 : Int) - (1 : Nat) * (2 : Nat)).natAbs :=
  ⟨by decide, by decide +kernel, ⟨by decide +kernel, 1, 0, by decide, rfl⟩, by decide⟩

theorem test_witness_DmEncodes : (smpState 0 twoSamples).HoldsSamples twoSamples ∧
    twoSamples.length ≤ (smpState 0 twoSamples).cfg.sMax ∧ twoSamples.length ≤ (smpState 0 twoSamples).cfg.nMax ∧
    testReset.HoldsSamples [] := ⟨State.holdsSamples_iff.2 rfl, by decide, by decide, State.holdsSamples_iff.2 rfl⟩

theorem test_witness_DmStops : (∃ s : State, s.cfg.sMax < s.smpLen.toNat) ∧
    (∃ s : State, s.cfg.nMax < s.smpLen.toNat) ∧
    (∃ s : State, s.smpLen.toNat ≤ s.cfg.sMax ∧ s.smpLen.toNat ≤ s.cfg.nMax ∧
      ∃ j, j < s.smpLen.toNat ∧ s.smp.read j = none) ∧
    (∃ s : State, s.smpLen.toNat ≤ s.cfg.sMax ∧ s.smpLen.toNat ≤ s.cfg.nMax ∧
      ∀ j, j < s.smpLen.toNat → s.smp.read j ≠ none) :=
  ⟨⟨{ testReset with smpLen := 17#32 }, by decide⟩,
    ⟨{ testReset with cfg := tinyConfig, smpLen := 2#32 }, by decide⟩,
    ⟨{ testReset with smpLen := 16#32 }, by decide, by decide, 15, by decide, rfl⟩,
    ⟨{ testReset with cfg := tinyConfig, smp := [(0, 1#64)], smpLen := 1#32 }, by decide⟩⟩

theorem test_witness_CommandsWriteOnlyTheirOutputs : ∃ t, exec .encMan (symState [1]) = .next t ∧
    Instr.encMan ≠ .pcm ∧ Instr.encMan ≠ .dm := ⟨_, rfl, by decide, by decide⟩

theorem test_witness_NrzlWritesOnlyItsOutputs : ∃ t, exec .encNrzl (symState [1]) = .next t := ⟨_, rfl⟩

theorem test_witness_ScrambleWritesOnlyItsOutputs : ∃ t, exec .scrB8zs (amiState [1]) = .next t := ⟨_, rfl⟩

theorem test_witness_PcmWritesOnlyItsOutputs : ∃ t, exec .pcm testReset = .next t := ⟨_, rfl⟩

theorem test_witness_DmWritesOnlyItsOutputs : ∃ t, exec .dm testReset = .next t := ⟨_, rfl⟩

/-- Two states that differ in what NRZ-L does not read. -/
theorem test_witness_CommandsDependOnlyOnTheirInputs :
    inputsAgree .encNrzl (symState [1]) { symState [1] with bps := 7#32, pul := [(0, 3#2)] } ∧
    symState [1] ≠ { symState [1] with bps := 7#32, pul := [(0, 3#2)] } :=
  ⟨⟨rfl, rfl, fun _ _ => rfl⟩, by decide⟩

theorem test_witness_DefinedInputsRecordNoFault : (symState [1]).inputsDefined .encAmi ∧
    testReset.inputsDefined .pcm ∧ (amiState [1]).inputsDefined .scrHdb3 := by
  refine ⟨fun j hj => ?_, fun j hj => absurd hj (by show ¬ j < 0; omega), fun j hj => ?_⟩
  · have : j = 0 := by
      have h1 : (symState [1]).symLen.toNat = 1 := by decide
      omega
    subst this
    decide
  · have : j = 0 := by
      have h1 : (amiState [1]).symLen.toNat = 1 := by decide
      omega
    subst this
    decide

theorem test_witness_Invariant : testReset.Inv := by
  constructor <;> decide

theorem test_witness_DutifulHostSeesOnlyUndefRead : (hostState [.ldSym 63]).Inv ∧
    (hostState [.ldSym 63]).fault = none ∧ (hostState [.ldSym 63]).host = [.ldSym 63] ∧
    (HostAction.ldSym 63).wf (hostState [.ldSym 63]).cfg = true :=
  ⟨by constructor <;> decide, by decide⟩

theorem test_witness_StepKeepsInvariant : ∃ t, testReset.Inv ∧ step testReset = .next t :=
  ⟨testReset, test_witness_Invariant, rfl⟩

theorem test_witness_HostNeverSeesBusy : testConfig.wf = true ∧
    Runs (State.loaded testConfig [.rd 1]) (State.loaded testConfig [.rd 1]) := ⟨by decide, .refl _⟩

end Sys2Proof.Machine
end

section
/-!
The invariant of the state: every update that a command or a host action makes keeps it, one lemma per
update; so every step keeps it, and the reset state has it (O48, O49).
-/

namespace Sys2Proof.Machine

/-- The codes of R80 are 1 to 10, so that none is NONE. -/
theorem Cause.code_range (c : Cause) : c.code ≠ causeNone ∧ c.code.toNat ≤ 10 := by
  cases c <;> decide

/-! ### Updates that write no field the invariant speaks of -/

theorem State.Inv.setCmd {s : State} (h : s.Inv) (w : Word) : State.Inv { s with cmd := w } := { h with }

theorem State.Inv.setHost {s : State} (h : s.Inv) (acts : List HostAction) :
    State.Inv { s with host := acts } := { h with }

theorem State.Inv.hostFault {s : State} (h : s.Inv) (f : HostFault) : (s.hostFault f).Inv := { h with }

theorem State.Inv.reply {s : State} (h : s.Inv) (r : HostReply) : (s.reply r).Inv := { h with }

/-! ### The ends of a command -/

theorem State.Inv.raiseInvalid {s : State} (h : s.Inv) (c : Cause) : (s.raiseInvalid c).Inv :=
  { h with
    not_busy := (by decide : stateError ≠ stateBusy)
    cause_le := c.code_range.2
    cause_iff := iff_of_true c.code_range.1 rfl }

theorem State.Inv.complete {s : State} (h : s.Inv) : s.complete.Inv :=
  { h with
    not_busy := (by decide : stateDone ≠ stateBusy)
    cause_le := (by decide : causeNone.toNat ≤ 10)
    cause_iff := (by decide : causeNone ≠ causeNone ↔ stateDone = stateError) }

/-! ### Writes to the buffers, below capacity -/

theorem State.Inv.rewriteTrain {s : State} (h : s.Inv) {p : List Level} (hp : p.length ≤ s.cfg.pMax) :
    (s.rewriteTrain p).Inv :=
  { h with
    pul_wf := Memory.wf_writeFrom 0 _ h.pul_wf
    pul_within := Memory.within_writeFrom h.pul_within (by simpa using hp) }

theorem State.Inv.putTrain {s : State} (h : s.Inv) {p : List Level} (hp : p.length ≤ s.cfg.pMax) :
    (s.putTrain p).Inv := { h.rewriteTrain hp with }

theorem State.Inv.putSymbols {s : State} (h : s.Inv) {y : List Symbol} (hy : y.length ≤ s.cfg.nMax) :
    (s.putSymbols y).Inv :=
  { h with
    sym_wf := Memory.wf_writeFrom 0 _ h.sym_wf
    sym_within := Memory.within_writeFrom h.sym_within (by simpa using hy) }

/-! ### Reset -/

/-- The reset state of a block with legal parameters has the invariant (R7, R34). -/
theorem State.resetWith_inv {c : Config} (hc : c.wf = true) : (State.resetWith c).Inv where
  cfg_wf := hc
  sym_wf := rfl
  pul_wf := rfl
  smp_wf := rfl
  sym_within := rfl
  pul_within := rfl
  smp_within := rfl
  not_busy := by simp [stateBusy]
  cause_le := by simp
  cause_iff := by simp [causeNone, stateError]

theorem State.Inv.resetBlock {s : State} (h : s.Inv) : s.resetBlock.Inv :=
  { State.resetWith_inv h.cfg_wf with }

/-- The parameters of the block at `State.reset` are legal whatever its open capacities are (R7, D9). -/
theorem resetConfig_wf : resetConfig.wf = true := by
  simp [Config.wf, resetConfig]

/-! ### Commands, host actions, steps -/

/-- The outputs of a command that completes keep the invariant, since they lie inside the buffers. -/
theorem State.Inv.commandResult {i : Instr} {s t : State} (h : s.Inv) (hr : commandResult i s = .ok t) :
    t.Inv := by
  obtain ⟨-, p, rfl, -, hp⟩ | ⟨-, p, rfl, -, hp⟩ | ⟨-, y, rfl, -, hy⟩ := commandResult_ok_cases hr
  · exact h.putTrain hp
  · exact h.rewriteTrain hp
  · exact h.putSymbols hy

/-- A command keeps the invariant, whichever of its three ends it comes to. -/
theorem State.Inv.exec {i : Instr} {s t : State} (h : s.Inv) (he : exec i s = .next t) : t.Inv := by
  obtain ⟨u, hu, hn⟩ | ⟨c, -, hn⟩ | ⟨f, -, hn⟩ := exec_cases i s
  all_goals obtain rfl : _ = t := Host.Outcome.next.inj (hn.symm.trans he)
  · exact (h.commandResult hu).complete
  · exact h.raiseInvalid c
  · exact h.hostFault f

/-- A host action keeps the invariant, whatever the form of its effect. -/
theorem State.Inv.hostEffect {s t : State} (h : s.Inv) (he : HostEffect s t) : t.Inv := by
  cases he with
  | fault f => exact h.hostFault f
  | command w i t _ hx => exact (h.setCmd w).exec hx
  | illegal w e _ => exact (h.setCmd w).raiseInvalid _
  | symLen v | pulLen v | smpLen v | bps v => exact { h with }
  | sym i b hi =>
    exact { h with
      sym_wf := Memory.wf_write i b h.sym_wf
      sym_within := Memory.within_write b h.sym_within hi }
  | pul i c hi =>
    exact { h with
      pul_wf := Memory.wf_write i c h.pul_wf
      pul_within := Memory.within_write c h.pul_within hi }
  | smp i x hi =>
    exact { h with
      smp_wf := Memory.wf_write i x h.smp_wf
      smp_within := Memory.within_write x h.smp_within hi }
  | reply r => exact h.reply r
  | reset => exact h.resetBlock

/-- Settles O48: a step does nothing or carries out one host action, and each form of a host action's effect
keeps the invariant. -/
theorem stepKeepsInvariant : Obligations.StepKeepsInvariant := by
  intro s t h hs
  obtain ⟨-, ⟨-, rfl⟩ | ⟨a, rest, -, ha⟩⟩ := step_next_cases hs
  · exact h
  · exact (h.setHost rest).hostEffect (hostAct_next ha)

/-- Settles O49: the reset state of a block with legal parameters has the invariant, and the program to come is
no part of it. -/
theorem invariantAtReset : Obligations.InvariantAtReset :=
  ⟨State.resetWith_inv resetConfig_wf, fun _ program hc => (State.resetWith_inv hc).setHost program⟩

end Sys2Proof.Machine
end

section
/-!
Rounding gives the nearest representable value, the even one in a tie (O40). With `e = ulpExp num den` the result
is a multiple `k * 2^e` of the unit in the last place. A representable value is either a multiple of `2^e` too,
and then `nearestEven` is at least as near, or it lies below `2^(52+e)`, a multiple of `2^e` that is nearer.
-/

namespace Sys2Proof.Machine.F64

/-! ### `nearestEven` -/

/-- The error of `nearestEven` is at most half the denominator, and exactly half only for an even result. -/
theorem nearestEven_error {num den : Nat} (hd : 0 < den) :
    2 * ((num : Int) - nearestEven num den * den).natAbs ≤ den ∧
      (2 * ((num : Int) - nearestEven num den * den).natAbs = den → nearestEven num den % 2 = 0) := by
  have hdiv : ((num / den : Nat) : Int) * den + (num % den : Nat) = num := by
    exact_mod_cast Nat.div_add_mod' num den
  have hlt := Nat.mod_lt num hd
  simp only [nearestEven]
  split
  · push_cast [add_mul]
    push_cast at hdiv
    omega
  · omega

/-- No natural number is nearer to `num / den` than `nearestEven`, and only an even one is as near as another. -/
theorem nearestEven_nearest {num den : Nat} (hd : 0 < den) (m : Nat) :
    ((num : Int) - nearestEven num den * den).natAbs ≤ ((num : Int) - m * den).natAbs ∧
      (m ≠ nearestEven num den →
        ((num : Int) - nearestEven num den * den).natAbs = ((num : Int) - m * den).natAbs →
        nearestEven num den % 2 = 0) := by
  obtain ⟨hhalf, heven⟩ := nearestEven_error (num := num) hd
  by_cases hm : m = nearestEven num den
  · simp [hm]
  · have hgap : (den : Int) ≤ |(nearestEven num den : Int) * den - m * den| := by
      rw [← sub_mul, abs_mul, Nat.abs_cast]
      exact le_mul_of_one_le_left (by positivity) (Int.one_le_abs (by omega))
    rw [Int.abs_eq_natAbs] at hgap
    omega

/-- `nearestEven` is the quotient rounded down or up. -/
theorem nearestEven_le (num den : Nat) : nearestEven num den ≤ num / den + 1 := by
  simp only [nearestEven]
  split <;> omega

/-! ### The unit in the last place -/

/-- At most 53 bits of the quotient stand at or above the unit in the last place. -/
theorem div_ulp_lt (num den : Nat) : num / (den * 2 ^ ulpExp num den) < 2 ^ 53 := by
  rw [← Nat.div_div_eq_div_mul]
  refine Nat.div_lt_of_lt_mul (Nat.lt_log2_self.trans_le ?_)
  rw [← pow_add]
  exact Nat.pow_le_pow_right two_pos (by rw [ulpExp]; omega)

/-- Above the smallest unit, the quotient has its leading bit 52 places above the unit in the last place. -/
theorem pow_mul_den_le {num den : Nat} (he : ulpExp num den ≠ 0) :
    2 ^ 52 * 2 ^ ulpExp num den * den ≤ num := by
  have hlog : 52 + ulpExp num den = Nat.log2 (num / den) := by rw [ulpExp] at he ⊢; omega
  have hq : num / den ≠ 0 := by
    intro h
    simp [h] at hlog
  rw [← pow_add, hlog]
  exact (Nat.mul_le_mul_right den (Nat.log2_self_le hq)).trans (Nat.div_mul_le_self num den)

/-! ### Representable magnitudes -/

/-- A significand of at most 53 bits, or the first one above them, is representable below the overflow. -/
theorem representable_of_le {k e : Nat} (hk : k ≤ 2 ^ 53) (hlt : k * 2 ^ e < overflow) :
    Representable (k * 2 ^ e) := by
  refine ⟨hlt, ?_⟩
  rcases hk.lt_or_eq with h | rfl
  · exact ⟨k, e, h, rfl⟩
  · exact ⟨2 ^ 52, e + 1, by norm_num, by ring⟩

/-- A representable magnitude is a multiple of `2^e`, or `e` is not the smallest exponent and it lies below every
number whose unit in the last place is `2^e`. -/
theorem Representable.dvd_or_lt {v : Nat} (hv : Representable v) (e : Nat) :
    2 ^ e ∣ v ∨ e ≠ 0 ∧ v < 2 ^ 52 * 2 ^ e := by
  obtain ⟨-, k, f, hk, rfl⟩ := hv
  rcases Nat.lt_or_ge f e with hlt | hge
  · obtain ⟨d, rfl⟩ := Nat.exists_eq_add_of_lt hlt
    refine .inr ⟨by omega, ?_⟩
    calc k * 2 ^ f < 2 ^ 53 * 2 ^ f := Nat.mul_lt_mul_of_pos_right hk (by positivity)
      _ ≤ 2 ^ 53 * 2 ^ (f + d) := Nat.mul_le_mul_left _ (Nat.pow_le_pow_right two_pos (by omega))
      _ = 2 ^ 52 * 2 ^ (f + d + 1) := by ring
  · exact .inl (Dvd.dvd.mul_left (pow_dvd_pow 2 hge) k)

/-! ### `round` -/

/-- A finite result of rounding is the nearest multiple of the unit in the last place. -/
theorem round_eq_fin {n n' : Bool} {num den mag : Nat} (h : round n num den = .fin n' mag) :
    n' = n ∧ mag = nearestEven num (den * 2 ^ ulpExp num den) * 2 ^ ulpExp num den ∧ mag < overflow := by
  simp only [round] at h
  split at h
  · cases h
  · cases h
    exact ⟨rfl, rfl, by omega⟩

/-- Among the multiples `m * 2^e` of a unit, the one of `nearestEven` is nearest to `num / den`. -/
theorem nearestEven_multiple_nearest {num den : Nat} (hd : 0 < den) (e m : Nat) :
    ((num : Int) - (nearestEven num (den * 2 ^ e) * 2 ^ e : Nat) * den).natAbs ≤
        ((num : Int) - (m * 2 ^ e : Nat) * den).natAbs ∧
      (m ≠ nearestEven num (den * 2 ^ e) →
        ((num : Int) - (nearestEven num (den * 2 ^ e) * 2 ^ e : Nat) * den).natAbs =
          ((num : Int) - (m * 2 ^ e : Nat) * den).natAbs →
        nearestEven num (den * 2 ^ e) % 2 = 0) := by
  have hscale (k : Nat) : ((k * 2 ^ e : Nat) : Int) * den = k * (den * 2 ^ e : Nat) := by push_cast; ring
  simpa only [hscale] using nearestEven_nearest (num := num) (den := den * 2 ^ e) (by positivity) m

/-- Settles O40: a representable value that is no multiple of the unit in the last place lies below `2^(52+e)`,
which is a multiple and nearer. -/
theorem roundingIsNearestEven : Obligations.RoundingIsNearestEven := by
  intro n n' num den mag hd hr
  obtain ⟨rfl, rfl, hlt⟩ := round_eq_fin hr
  have hle := (nearestEven_le num (den * 2 ^ ulpExp num den)).trans (div_ulp_lt num den)
  refine ⟨rfl, representable_of_le hle hlt, fun v hv => ?_⟩
  rcases hv.dvd_or_lt (ulpExp num den) with ⟨m, rfl⟩ | ⟨he, hvlt⟩
  · rw [mul_comm (2 ^ ulpExp num den) m]
    obtain ⟨hnear, heven⟩ := nearestEven_multiple_nearest (num := num) hd (ulpExp num den) m
    refine ⟨hnear, fun hne heq => ?_⟩
    have hk := heven (fun h => hne (by rw [h])) heq
    exact Nat.mod_eq_zero_of_dvd (Nat.mul_dvd_mul_right (Nat.dvd_of_mod_eq_zero hk) _)
  · have hnear := (nearestEven_multiple_nearest (num := num) hd (ulpExp num den) (2 ^ 52)).1
    have hlow := pow_mul_den_le he
    have hbelow : v * den < 2 ^ 52 * 2 ^ ulpExp num den * den := Nat.mul_lt_mul_of_pos_right hvlt hd
    have hfar : ((num : Int) - (2 ^ 52 * 2 ^ ulpExp num den : Nat) * den).natAbs <
        ((num : Int) - v * den).natAbs := by
      rw [← Nat.cast_mul, ← Nat.cast_mul]
      omega
    exact ⟨(hnear.trans_lt hfar).le, fun _ heq => absurd heq (hnear.trans_lt hfar).ne⟩

end Sys2Proof.Machine.F64
end

section
/-!
The host's view of the registers: a state with a recorded fault takes no step, a reset leaves the reset values, a
register read or write does what its row says and no more (O6, O9, O11, O12, O13), and no run from reset shows
STATE = BUSY (O50).
-/

namespace Sys2Proof.Machine

/-- The step of a state that is not BUSY is the access that its next host action makes (R99, R100). -/
theorem step_access {s : State} {a : HostAction} {rest : List HostAction} (hf : s.fault = none)
    (hb : s.status ≠ stateBusy) (hh : s.host = a :: rest) :
    step s = hostAccess a { s with host := rest } := by
  rw [step_action hf hh, hostAct, if_neg fun h => hb h.1]

/-- Settles O6: `step` reads FAULT before it looks at the host's next action. -/
theorem faultStopsTheMachine : Obligations.FaultStopsTheMachine := by
  intro s r hf
  simp only [step, hf]

/-! ### Reset -/

theorem State.resetWith_atReset (c : Config) : (State.resetWith c).AtReset :=
  ⟨rfl, rfl, rfl, rfl, rfl, rfl, rfl, fun _ => rfl, fun _ => rfl, fun _ => rfl, rfl⟩

theorem State.resetBlock_atReset (s : State) : s.resetBlock.AtReset := { State.resetWith_atReset s.cfg with }

/-- Settles O9: the reset state holds the reset values for any parameters, and a reset action leaves the same
block. -/
theorem resetLeavesResetValues : Obligations.ResetLeavesResetValues :=
  ⟨State.resetWith_atReset _, State.resetWith_atReset, fun _ _ hf hb hh =>
    ⟨_, step_access hf hb hh, State.resetBlock_atReset _, rfl, rfl⟩⟩

/-! ### Register accesses -/

/-- A word whose low `w` bits are `x`, with zeros above, is `x` extended with zeros. -/
theorem eq_setWidth_of_extractLsb' {n w k : Nat} {v : BitVec n} {x : BitVec w} (hn : n = w + k)
    (hlow : v.extractLsb' 0 w = x) (hhigh : v.extractLsb' w k = 0#k) : v = x.setWidth n := by
  subst hlow
  ext i hi
  by_cases hw : i < w
  · simp [hw, hi, ← BitVec.getLsbD_eq_getElem]
  · have hzero : (v.extractLsb' w k).getLsbD (i - w) = false := by rw [hhigh, BitVec.getLsbD_zero]
    rw [BitVec.getLsbD_extractLsb', Nat.add_sub_cancel' (by omega)] at hzero
    simpa [hw, ← BitVec.getLsbD_eq_getElem, show i - w < k by omega] using hzero

/-- A read of a mapped register gives its word to the host and changes nothing of the block (R46). -/
theorem step_rd_of_registerWord {s : State} {n : Nat} {v : Word} {rest : List HostAction} (hf : s.fault = none)
    (hb : s.status ≠ stateBusy) (hh : s.host = .rd n :: rest) (hv : s.registerWord n = some v) :
    step s = .next { s with host := rest, got := .register v :: s.got } := by
  have hv' : State.registerWord { s with host := rest } n = some v := hv
  rw [step_access hf hb hh, hostAccess, readRegister, hv']
  rfl

/-- Settles O11: the word that R20 to R26 describe is the one the register number selects. -/
theorem registerReads : Obligations.RegisterReads := by
  intro s n rest v hf hb hh hv
  apply step_rd_of_registerWord hf hb hh
  rcases hv with ⟨rfl, rfl⟩ | ⟨rfl, hlow, hhigh⟩ | ⟨rfl, hlow, hhigh⟩ | hlen
  · rfl
  · exact congrArg some (eq_setWidth_of_extractLsb' rfl hlow hhigh).symm
  · exact congrArg some (eq_setWidth_of_extractLsb' rfl hlow hhigh).symm
  · rcases hlen with ⟨rfl, rfl⟩ | ⟨rfl, rfl⟩ | ⟨rfl, rfl⟩ | ⟨rfl, rfl⟩ <;> rfl

theorem readRegister_unmapped {n : Nat} (hn : 7 ≤ n) (s : State) :
    readRegister n s = .next (s.hostFault .badRegister) := by
  obtain ⟨k, rfl⟩ := Nat.exists_eq_add_of_le' hn
  rfl

theorem writeRegister_unmapped {n : Nat} (hn : 7 ≤ n) (v : Word) (s : State) :
    writeRegister n v s = .next (s.hostFault .badRegister) := by
  obtain ⟨k, rfl⟩ := Nat.exists_eq_add_of_le' hn
  rfl

/-- Settles O12: the register number alone decides the fault. -/
theorem registerAccessFaults : Obligations.RegisterAccessFaults := by
  intro s rest hf hb
  refine ⟨fun n hn hh => ?_, fun n v hn hh => ?_, fun n v hn hh => ?_⟩
  · exact (step_access hf hb hh).trans (readRegister_unmapped hn _)
  · exact (step_access hf hb hh).trans (writeRegister_unmapped hn v _)
  · obtain rfl | rfl := hn <;> exact step_access hf hb hh

/-- Settles O13: registers 3 to 6 take the word of the access as it stands. -/
theorem lengthRegisterWrites : Obligations.LengthRegisterWrites := by
  intro s rest v hf hb
  exact ⟨step_access hf hb, step_access hf hb, step_access hf hb, step_access hf hb⟩

/-! ### Runs -/

/-- What holds at the start of a run and is kept by every step holds at every state of the run. -/
theorem Runs.keeps {P : State → Prop} (hstep : ∀ t u, P t → step t = .next u → P u) {s t : State}
    (hr : Runs s t) (hs : P s) : P t := by
  induction hr with
  | refl => exact hs
  | tail _ hn ih => exact hstep _ _ ih hn

/-- A command leaves the parameters alone, whichever of its three ends it comes to. -/
theorem exec_cfg {i : Instr} {s t : State} (he : exec i s = .next t) : t.cfg = s.cfg := by
  obtain ⟨u, hu, hn⟩ | ⟨c, -, hn⟩ | ⟨f, -, hn⟩ := exec_cases i s
  all_goals obtain rfl : _ = t := Host.Outcome.next.inj (hn.symm.trans he)
  · obtain ⟨-, p, rfl, -⟩ | ⟨-, p, rfl, -⟩ | ⟨-, y, rfl, -⟩ := commandResult_ok_cases hu <;> rfl
  · rfl
  · rfl

theorem HostEffect.cfg_eq {s t : State} (h : HostEffect s t) : t.cfg = s.cfg := by
  cases h with
  | command w i t _ he => exact exec_cfg (s := { s with cmd := w }) he
  | _ => rfl

theorem step_cfg {s t : State} (h : step s = .next t) : t.cfg = s.cfg := by
  obtain ⟨-, ⟨-, rfl⟩ | ⟨a, rest, -, ha⟩⟩ := step_next_cases h
  · rfl
  · exact (hostAct_next ha).cfg_eq

/-- Settles O50: every state of the run has the invariant, which the program loaded is no part of, and the
parameters it started with. -/
theorem hostNeverSeesBusy : Obligations.HostNeverSeesBusy := by
  intro c program s hc hr
  have hinv : s.Inv := hr.keeps stepKeepsInvariant (invariantAtReset.2 c program hc)
  have hcfg : s.cfg = c := hr.keeps (fun _ _ ht hn => (step_cfg hn).trans ht) rfl
  exact ⟨hinv.not_busy, hinv.cause_iff.symm, hcfg⟩

end Sys2Proof.Machine
end

section
/-!
A command sees of the state its inputs alone (O45). In states that agree on them the input checks give one answer,
so a command stops for one reason or makes one list of elements, which reads alike whatever it is written over.
-/

namespace Sys2Proof.Machine

/-! ### Buffers -/

theorem Memory.readFrom_congr {w : Nat} {m m' : Memory w} {n : Nat}
    (h : ∀ j, j < n → m.read j = m'.read j) : m.readFrom 0 n = m'.readFrom 0 n := by
  ext xs
  simp only [Memory.readFrom_eq_some_iff, Nat.zero_add]
  exact and_congr_right fun _ => forall₂_congr fun j hj => by rw [h j hj]

/-- What a buffer held before a run of elements was written is not read back below the run's end. -/
theorem Memory.read_writeFrom_zero_congr {w : Nat} (m m' : Memory w) {xs : List (BitVec w)} {j : Nat}
    (hj : j < xs.length) : (m.writeFrom 0 xs).read j = (m'.writeFrom 0 xs).read j := by
  rw [Memory.read_writeFrom_zero, Memory.read_writeFrom_zero, if_pos hj, if_pos hj]

/-! ### Input checks -/

section InputsAgree

variable {s s' : State} (hc : s.cfg = s'.cfg)
include hc

theorem lineInput_congr (hl : s.symLen = s'.symLen)
    (hr : ∀ j, j < s.symLen.toNat → s.sym.read j = s'.sym.read j) : lineInput s = lineInput s' := by
  simp only [lineInput, State.symbols, Memory.readFrom_congr hr]
  rw [hc, hl]

theorem scrambleInput_congr (ref : List Symbol → List Level) (hl : s.symLen = s'.symLen)
    (hp : s.pulLen = s'.pulLen)
    (hr : ∀ j, j < s.symLen.toNat → s.sym.read j = s'.sym.read j ∧ s.pul.read j = s'.pul.read j) :
    scrambleInput ref s = scrambleInput ref s' := by
  simp only [scrambleInput, State.symbols, Memory.readFrom_congr fun j hj => (hr j hj).1,
    Memory.readFrom_congr fun j hj => (hr j hj).2]
  rw [hc, hl, hp]

theorem pcmInput_congr (hl : s.smpLen = s'.smpLen) (hb : s.bps = s'.bps)
    (hr : ∀ j, j < s.smpLen.toNat → s.smp.read j = s'.smp.read j) : pcmInput s = pcmInput s' := by
  simp only [pcmInput, Memory.readFrom_congr hr]
  rw [hc, hl, hb]

theorem dmInput_congr (hl : s.smpLen = s'.smpLen)
    (hr : ∀ j, j < s.smpLen.toNat → s.smp.read j = s'.smp.read j) : dmInput s = dmInput s' := by
  simp only [dmInput, Memory.readFrom_congr hr]
  rw [hc, hl]

end InputsAgree

/-! ### A command's only fault is UNDEF_READ -/

theorem lineInput_fault {s : State} {f : HostFault} (h : lineInput s = .error (.fault f)) : f = .undefRead := by
  simp only [lineInput] at h
  repeat' split at h
  all_goals cases h
  rfl

theorem scrambleInput_fault {ref : List Symbol → List Level} {s : State} {f : HostFault}
    (h : scrambleInput ref s = .error (.fault f)) : f = .undefRead := by
  simp only [scrambleInput] at h
  repeat' split at h
  all_goals cases h
  rfl

theorem pcmInput_fault {s : State} {f : HostFault} (h : pcmInput s = .error (.fault f)) : f = .undefRead := by
  simp only [pcmInput] at h
  repeat' split at h
  all_goals cases h
  rfl

theorem dmInput_fault {s : State} {f : HostFault} (h : dmInput s = .error (.fault f)) : f = .undefRead := by
  simp only [dmInput] at h
  repeat' split at h
  all_goals cases h
  rfl

/-- What PCM_ENCODE makes of samples it has read stops in no model fault (R81). -/
theorem pcmSymbols_ne_fault (b : Nat) (xs : List F64) (f : HostFault) : pcmSymbols b xs ≠ .error (.fault f) := by
  cases xs with
  | nil => simp [pcmSymbols]
  | cons x xs => simp only [pcmSymbols]; split_ifs <;> simp

theorem except_map_eq_error {α β ε : Type} {r : Except ε α} {g : α → β} {e : ε} (h : r.map g = .error e) :
    r = .error e := by
  cases r with
  | error e' => exact congrArg _ (Except.error.inj h)
  | ok a => cases h

theorem commandResult_fault {i : Instr} {s : State} {f : HostFault}
    (h : commandResult i s = .error (.fault f)) : f = .undefRead := by
  cases i with
  | encNrzl | encNrzi | encMan | encDman | encAmi => exact lineInput_fault (except_map_eq_error h)
  | scrB8zs | scrHdb3 => exact scrambleInput_fault (except_map_eq_error h)
  | pcm =>
    simp only [commandResult, pcmResult] at h
    split at h
    · rename_i hx
      cases h
      exact pcmInput_fault hx
    · exact absurd (except_map_eq_error h) (pcmSymbols_ne_fault _ _ f)
  | dm => exact dmInput_fault (except_map_eq_error h)

/-! ### One result from inputs that agree -/

/-- Two results of a command stop for one reason, or are both outputs, related by `R`. -/
def ResultsAgree (R : State → State → Prop) (r r' : Except Stop State) : Prop :=
  (∃ e, r = .error e ∧ r' = .error e) ∨ ∃ t t', r = .ok t ∧ r' = .ok t' ∧ R t t'

/-- Outputs made of one input agree when they do for each value the input can have. -/
theorem resultsAgree_map {α : Type} {R : State → State → Prop} {r : Except Stop α} {g g' : α → State}
    (h : ∀ a, r = .ok a → R (g a) (g' a)) : ResultsAgree R (r.map g) (r.map g') := by
  cases r with
  | error e => exact .inl ⟨e, rfl, rfl⟩
  | ok a => exact .inr ⟨_, _, rfl, rfl, h a rfl⟩

theorem pcmInput_length {s : State} {xs : List (BitVec 64)} (h : pcmInput s = .ok xs) :
    xs.length = s.smpLen.toNat := by
  obtain ⟨-, -, -, -, -, hx⟩ := pcmInput_eq_ok_iff.1 h
  exact (Memory.readFrom_eq_some_iff.1 hx).1

theorem dmInput_length {s : State} {xs : List (BitVec 64)} (h : dmInput s = .ok xs) :
    xs.length = s.smpLen.toNat := by
  obtain ⟨-, -, hx⟩ := dmInput_eq_ok_iff.1 h
  exact (Memory.readFrom_eq_some_iff.1 hx).1

/-- States that agree on a command's inputs give it results that agree on its outputs (R41, R84). -/
theorem commandResult_agree {i : Instr} {s s' : State} (h : inputsAgree i s s') :
    ResultsAgree (outputsAgree i) (commandResult i s) (commandResult i s') := by
  obtain ⟨hc, hin⟩ := h
  cases i with
  | encNrzl | encNrzi | encMan | encDman | encAmi =>
    obtain ⟨hl, hr⟩ := hin
    simp only [commandResult, ← lineInput_congr hc hl hr, ← hc]
    refine resultsAgree_map fun y hy => ⟨rfl, fun j hj => Memory.read_writeFrom_zero_congr _ _ ?_⟩
    simpa [(lineInput_length hy).1] using hj
  | scrB8zs | scrHdb3 =>
    obtain ⟨hl, hp, hr⟩ := hin
    simp only [commandResult, ← scrambleInput_congr hc encAmi hl hp hr, ← hc]
    refine resultsAgree_map fun y hy j hj => Memory.read_writeFrom_zero_congr _ _ ?_
    simpa [(scrambleInput_length hy).1] using hj
  | pcm =>
    obtain ⟨hl, hb, hr⟩ := hin
    simp only [commandResult, pcmResult, ← pcmInput_congr hc hl hb hr, ← hb]
    cases hx : pcmInput s with
    | error e => exact .inl ⟨e, rfl, rfl⟩
    | ok xs =>
      refine resultsAgree_map fun y hy => ⟨rfl, fun j hj => Memory.read_writeFrom_zero_congr _ _ ?_⟩
      simpa [pcmSymbols_length hy, pcmInput_length hx] using hj
  | dm =>
    obtain ⟨hl, hr⟩ := hin
    simp only [commandResult, ← dmInput_congr hc hl hr]
    refine resultsAgree_map fun xs hx => ⟨rfl, fun j hj => Memory.read_writeFrom_zero_congr _ _ ?_⟩
    simpa [dmInput_length hx] using hj

theorem outputsAgree_complete {i : Instr} {t t' : State} (h : outputsAgree i t t') :
    outputsAgree i t.complete t'.complete := by
  cases i <;> exact h

/-- Settles O45: the results agree, and the end of a command adds to a result only what it says itself. -/
theorem commandsDependOnlyOnTheirInputs : Obligations.CommandsDependOnlyOnTheirInputs := by
  intro i s s' h
  simp only [exec_eq_endCommand]
  obtain ⟨e, hr, hr'⟩ | ⟨t, t', hr, hr', ht⟩ := commandResult_agree h
  · cases e with
    | invalid c => exact .inl ⟨c, by rw [hr]; rfl, by rw [hr']; rfl⟩
    | fault f =>
      obtain rfl := commandResult_fault hr
      exact .inr (.inl ⟨by rw [hr]; rfl, by rw [hr']; rfl⟩)
  · exact .inr (.inr ⟨_, _, congrArg (endCommand s) hr, congrArg (endCommand s') hr', rfl, rfl,
      outputsAgree_complete ht⟩)

end Sys2Proof.Machine
end

section
/-!
The buffers as the host sees them: an element written below capacity reads back and is the only one that changes,
an access outside the buffer or a read of an UNDEF element is a model fault (O14, O15), and a command reads
nothing but its inputs and writes nothing but its outputs (O44, O46).
-/

namespace Sys2Proof.Machine

/-! ### Element accesses (R39, R40) -/

theorem writeElement_of_lt {cap i : Nat} (hi : i < cap) (t s : State) : writeElement cap i t s = .next t :=
  if_pos hi

theorem writeElement_of_le {cap i : Nat} (hi : cap ≤ i) (t s : State) :
    writeElement cap i t s = .next (s.hostFault .indexRange) :=
  if_neg hi.not_gt

section ReadElement

variable {w cap i : Nat} {m : Memory w} (as : BitVec w → HostReply) (s : State)

theorem readElement_of_read_eq_some {v : BitVec w} (hi : i < cap) (hv : m.read i = some v) :
    readElement cap m i as s = .next (s.reply (as v)) := by
  rw [readElement, if_pos hi, hv]

theorem readElement_of_read_eq_none (hi : i < cap) (hu : m.read i = none) :
    readElement cap m i as s = .next (s.hostFault .undefRead) := by
  rw [readElement, if_pos hi, hu]

theorem readElement_of_le (hi : cap ≤ i) :
    readElement cap m i as s = .next (s.hostFault .indexRange) :=
  if_neg hi.not_gt

end ReadElement

/-- Settles O14: the write stores the element in its buffer alone, and the read finds it there. -/
theorem elementWriteThenRead : Obligations.ElementWriteThenRead := by
  intro s i rest hf hb
  refine ⟨fun v hi hh => ?_, fun v hi hh => ?_, fun v hi hh => ?_⟩
  all_goals
    refine ⟨_, (step_access hf hb hh).trans (writeElement_of_lt hi _ _), Memory.read_write_same _ i v,
      fun a ha => Memory.read_write_other _ v ha, rfl, ?_⟩
    exact Eq.trans (step_access hf hb rfl)
      (readElement_of_read_eq_some _ _ hi (Memory.read_write_same _ i v))

/-- Settles O15: an element access compares the index with the capacity first, and a read looks for the element
only below it. -/
theorem elementAccessFaults : Obligations.ElementAccessFaults := by
  intro s a i rest hf hb hh
  rw [step_access hf hb hh]
  constructor
  · rintro (⟨⟨b, rfl⟩ | rfl, hi⟩ | ⟨⟨c, rfl⟩ | rfl, hi⟩ | ⟨⟨x, rfl⟩ | rfl, hi⟩)
    · exact writeElement_of_le hi _ _
    · exact readElement_of_le _ _ hi
    · exact writeElement_of_le hi _ _
    · exact readElement_of_le _ _ hi
    · exact writeElement_of_le hi _ _
    · exact readElement_of_le _ _ hi
  · rintro (⟨rfl, hi, hu⟩ | ⟨rfl, hi, hu⟩ | ⟨rfl, hi, hu⟩) <;> exact readElement_of_read_eq_none _ _ hi hu

/-! ### What a command writes (R41, R42) -/

/-- The state a command leaves: its output written and STATE = DONE, or only an InvalidInput or a model fault
recorded. -/
theorem exec_next_cases {i : Instr} {s t : State} (h : exec i s = .next t) :
    ((i = .encNrzl ∨ i = .encNrzi ∨ i = .encMan ∨ i = .encDman ∨ i = .encAmi) ∧
      ∃ p, t = (s.putTrain p).complete ∧ p.length = outputLength i s) ∨
    ((i = .scrB8zs ∨ i = .scrHdb3) ∧ ∃ p, t = (s.rewriteTrain p).complete ∧ p.length = outputLength i s) ∨
    ((i = .pcm ∨ i = .dm) ∧ ∃ y, t = (s.putSymbols y).complete ∧ y.length = outputLength i s) ∨
    (∃ c, t = s.raiseInvalid c) ∨ ∃ f, t = s.hostFault f := by
  obtain ⟨u, hu, hn⟩ | ⟨c, -, hn⟩ | ⟨f, -, hn⟩ := exec_cases i s
  all_goals obtain rfl : _ = t := Host.Outcome.next.inj (hn.symm.trans h)
  · obtain ⟨hi, p, rfl, hp, -⟩ | ⟨hi, p, rfl, hp, -⟩ | ⟨hi, y, rfl, hy, -⟩ := commandResult_ok_cases hu
    · exact .inl ⟨hi, p, rfl, hp⟩
    · exact .inr (.inl ⟨hi, p, rfl, hp⟩)
    · exact .inr (.inr (.inl ⟨hi, y, rfl, hy⟩))
  · exact .inr (.inr (.inr (.inl ⟨c, rfl⟩)))
  · exact .inr (.inr (.inr (.inr ⟨f, rfl⟩)))

section Frame

variable {i : Instr} {s t : State} (h : exec i s = .next t)
include h

/-- No command writes CMD, an input of PCM_ENCODE or DM_ENCODE, or what is the host's. -/
theorem exec_keeps_inputs : t.cfg = s.cfg ∧ t.cmd = s.cmd ∧ t.smp = s.smp ∧ t.smpLen = s.smpLen ∧
    t.bps = s.bps ∧ t.host = s.host ∧ t.got = s.got := by
  obtain ⟨-, p, rfl, -⟩ | ⟨-, p, rfl, -⟩ | ⟨-, y, rfl, -⟩ | ⟨c, rfl⟩ | ⟨f, rfl⟩ := exec_next_cases h <;>
    exact ⟨rfl, rfl, rfl, rfl, rfl, rfl, rfl⟩

theorem exec_keeps_sym (hp : i ≠ .pcm) (hd : i ≠ .dm) : t.sym = s.sym ∧ t.symLen = s.symLen := by
  obtain ⟨-, p, rfl, -⟩ | ⟨-, p, rfl, -⟩ | ⟨hi, -⟩ | ⟨c, rfl⟩ | ⟨f, rfl⟩ := exec_next_cases h
  case inr.inr.inl => exact (hi.elim hp hd).elim
  all_goals exact ⟨rfl, rfl⟩

theorem exec_keeps_pulLen (hi : i = .scrB8zs ∨ i = .scrHdb3) : t.pulLen = s.pulLen := by
  obtain ⟨hl, -⟩ | ⟨-, p, rfl, -⟩ | ⟨-, y, rfl, -⟩ | ⟨c, rfl⟩ | ⟨f, rfl⟩ := exec_next_cases h
  case inl => rcases hi with rfl | rfl <;> simp at hl
  all_goals rfl

theorem exec_keeps_pul (hi : i = .pcm ∨ i = .dm) : t.pul = s.pul ∧ t.pulLen = s.pulLen := by
  obtain ⟨hl, -⟩ | ⟨hl, -⟩ | ⟨-, y, rfl, -⟩ | ⟨c, rfl⟩ | ⟨f, rfl⟩ := exec_next_cases h
  case inl | inr.inl => rcases hi with rfl | rfl <;> simp at hl
  all_goals exact ⟨rfl, rfl⟩

/-- A command leaves every element of SYM and PUL at or above its output length as it was. -/
theorem exec_keeps_elements_above {a : Nat} (ha : outputLength i s ≤ a) :
    t.sym.read a = s.sym.read a ∧ t.pul.read a = s.pul.read a := by
  obtain ⟨-, p, rfl, hl⟩ | ⟨-, p, rfl, hl⟩ | ⟨-, y, rfl, hl⟩ | ⟨c, rfl⟩ | ⟨f, rfl⟩ := exec_next_cases h
  · exact ⟨rfl, Memory.read_writeFrom_above (by simpa [hl] using ha)⟩
  · exact ⟨rfl, Memory.read_writeFrom_above (by simpa [hl] using ha)⟩
  · exact ⟨Memory.read_writeFrom_above (by simpa [hl] using ha), rfl⟩
  · exact ⟨rfl, rfl⟩
  · exact ⟨rfl, rfl⟩

end Frame

/-- Settles O44: the frame of each of the five ends, with the output length read off for each command. -/
theorem commandsWriteOnlyTheirOutputs : Obligations.CommandsWriteOnlyTheirOutputs := by
  intro i s t h
  obtain ⟨hcfg, hcmd, hsmp, hsmpLen, hbps, hhost, hgot⟩ := exec_keeps_inputs h
  refine ⟨hcfg, hcmd, hsmp, hsmpLen, hbps, hhost, hgot, exec_keeps_sym h, exec_keeps_pulLen h, exec_keeps_pul h,
    ?_, ?_, ?_, ?_⟩
  · rintro (rfl | rfl | rfl | rfl | rfl) a ha <;> exact (exec_keeps_elements_above h ha).2
  · rintro (rfl | rfl) a ha <;> exact (exec_keeps_elements_above h ha).2
  · rintro rfl a ha
    exact (exec_keeps_elements_above h ha).1
  · rintro rfl a ha
    exact (exec_keeps_elements_above h ha).1

/-! ### What a command reads (R39, R97) -/

section UndefinedInput

variable {s : State} {f : HostFault}

theorem lineInput_fault_undef (h : lineInput s = .error (.fault f)) :
    ∃ j, j < s.symLen.toNat ∧ s.sym.read j = none := by
  simp only [lineInput] at h
  repeat' split at h
  case h_1 hu => exact State.symbols_eq_none_iff.1 hu
  all_goals cases h

theorem scrambleInput_fault_undef {ref : List Symbol → List Level} (h : scrambleInput ref s = .error (.fault f)) :
    ∃ j, j < s.symLen.toNat ∧ (s.sym.read j = none ∨ s.pul.read j = none) := by
  simp only [scrambleInput] at h
  repeat' split at h
  case h_2 hu =>
    cases hx : s.symbols s.symLen.toNat with
    | none =>
      obtain ⟨j, hj, hr⟩ := State.symbols_eq_none_iff.1 hx
      exact ⟨j, hj, .inl hr⟩
    | some xs =>
      have hp : s.pul.readFrom 0 s.symLen.toNat = none := Option.eq_none_iff_forall_ne_some.2 (hu xs · hx)
      obtain ⟨j, hj, hr⟩ := Memory.readFrom_eq_none_iff.1 hp
      exact ⟨j, hj, .inr (by simpa using hr)⟩
  all_goals cases h

theorem pcmInput_fault_undef (h : pcmInput s = .error (.fault f)) :
    ∃ j, j < s.smpLen.toNat ∧ s.smp.read j = none := by
  simp only [pcmInput] at h
  repeat' split at h
  case h_1 hu => simpa using Memory.readFrom_eq_none_iff.1 hu
  all_goals cases h

theorem dmInput_fault_undef (h : dmInput s = .error (.fault f)) :
    ∃ j, j < s.smpLen.toNat ∧ s.smp.read j = none := by
  simp only [dmInput] at h
  repeat' split at h
  case h_1 hu => simpa using Memory.readFrom_eq_none_iff.1 hu
  all_goals cases h

/-- A command stops in a model fault only at an element of its input that is UNDEF. -/
theorem commandResult_fault_undef {i : Instr} (h : commandResult i s = .error (.fault f)) :
    ¬ s.inputsDefined i := by
  intro hdef
  cases i with
  | encNrzl | encNrzi | encMan | encDman | encAmi =>
    obtain ⟨j, hj, hu⟩ := lineInput_fault_undef (except_map_eq_error h)
    exact hdef j hj hu
  | scrB8zs | scrHdb3 =>
    obtain ⟨j, hj, hu⟩ := scrambleInput_fault_undef (except_map_eq_error h)
    exact hu.elim (hdef j hj).1 (hdef j hj).2
  | pcm =>
    simp only [commandResult, pcmResult] at h
    split at h
    · rename_i hx
      cases h
      obtain ⟨j, hj, hu⟩ := pcmInput_fault_undef hx
      exact hdef j hj hu
    · exact pcmSymbols_ne_fault _ _ f (except_map_eq_error h)
  | dm =>
    obtain ⟨j, hj, hu⟩ := dmInput_fault_undef (except_map_eq_error h)
    exact hdef j hj hu

end UndefinedInput

/-- Settles O46: of the three ends of a command only the model fault writes FAULT, and that end needs an UNDEF
input. -/
theorem definedInputsRecordNoFault : Obligations.DefinedInputsRecordNoFault := by
  intro i s hdef
  obtain ⟨t, ht, hn⟩ | ⟨c, -, hn⟩ | ⟨f, hf, -⟩ := exec_cases i s
  · refine ⟨_, hn, ?_⟩
    obtain ⟨-, p, rfl, -⟩ | ⟨-, p, rfl, -⟩ | ⟨-, y, rfl, -⟩ := commandResult_ok_cases ht <;> rfl
  · exact ⟨_, hn, rfl⟩
  · exact absurd hdef (commandResult_fault_undef hf)

end Sys2Proof.Machine
end

section
/-!
A sample pattern and its value (O39). A pattern is its sign, exponent and fraction; each kind of value that
`ofBits` makes of the three fields gives them back, and the value of a normal number has its leading bit at the
place that the exponent names.
-/

namespace Sys2Proof.Machine.F64

/-- A 64-bit pattern is its sign bit, its exponent bits and its fraction bits (R38). -/
theorem sign_append_exponent_append_fraction (x : BitVec 64) :
    BitVec.ofBool (x.getLsbD 63) ++ x.extractLsb' 52 11 ++ x.extractLsb' 0 52 = x := by
  have hsign : BitVec.ofBool (x.getLsbD 63) = x.extractLsb' 63 1 := by
    ext i hi
    obtain rfl : i = 0 := by omega
    simp
  rw [hsign, BitVec.extractLsb'_append_extractLsb'_eq_extractLsb' (show 63 = 52 + 11 from rfl)]
  exact BitVec.extractLsb'_append_extractLsb'

theorem toBits_inf (neg : Bool) : (inf neg).toBits = some (BitVec.ofBool neg ++ 2047#11 ++ 0#52) := rfl

/-- A fraction alone is the magnitude of a subnormal number or a zero. -/
theorem toBits_fraction (neg : Bool) (f : BitVec 52) :
    (fin neg f.toNat).toBits = some (BitVec.ofBool neg ++ 0#11 ++ f) := by
  simp only [toBits, if_pos f.isLt, BitVec.ofNat_toNat, BitVec.setWidth_eq]

/-- The leading bit of a magnitude with a significand of 53 bits stands 52 places above its unit. -/
theorem log2_significand_mul {n : Nat} (hlow : 2 ^ 52 ≤ n) (hhigh : n < 2 ^ 53) (k : Nat) :
    Nat.log2 (n * 2 ^ k) = 52 + k := by
  have hpos : 0 < 2 ^ k := by positivity
  rw [Nat.log2_eq_iff (by positivity), pow_add, show 52 + k + 1 = 53 + k by omega, pow_add]
  exact ⟨Nat.mul_le_mul_right _ hlow, Nat.mul_lt_mul_of_pos_right hhigh hpos⟩

/-- A nonzero exponent and a fraction are those of the normal number they make. -/
theorem toBits_normal (neg : Bool) {e : BitVec 11} (he : e.toNat ≠ 0) (f : BitVec 52) :
    (fin neg ((2 ^ 52 + f.toNat) * 2 ^ (e.toNat - 1))).toBits = some (BitVec.ofBool neg ++ e ++ f) := by
  have hf := f.isLt
  have hpos : 0 < 2 ^ (e.toNat - 1) := by positivity
  have hk : Nat.log2 ((2 ^ 52 + f.toNat) * 2 ^ (e.toNat - 1)) - 52 = e.toNat - 1 := by
    rw [log2_significand_mul (by omega) (by omega)]
    omega
  have hnormal : ¬ (2 ^ 52 + f.toNat) * 2 ^ (e.toNat - 1) < 2 ^ 52 :=
    ((Nat.le_add_right _ _).trans (Nat.le_mul_of_pos_right _ hpos)).not_gt
  have hexp : BitVec.ofNat 11 (e.toNat - 1 + 1) = e := by
    rw [Nat.sub_add_cancel (by omega), BitVec.ofNat_toNat, BitVec.setWidth_eq]
  have hfrac : BitVec.ofNat 52 (2 ^ 52 + f.toNat) = f := by
    apply BitVec.eq_of_toNat_eq
    rw [BitVec.toNat_ofNat, Nat.add_mod_left, Nat.mod_eq_of_lt hf]
  simp only [toBits, if_neg hnormal, hk, hexp, Nat.mul_div_cancel _ hpos, hfrac]

/-- Settles O39: the value of a pattern is an infinity, a fraction alone or a normal number, by its exponent. -/
theorem sampleBitsReadBack : Obligations.SampleBitsReadBack := by
  intro x hx
  conv_rhs => rw [← sign_append_exponent_append_fraction x]
  simp only [ofBits] at hx ⊢
  split_ifs at hx ⊢ with hmax hf hzero
  · rw [toBits_inf, ← BitVec.eq_of_toNat_eq (x := 2047#11) hmax.symm, ← BitVec.eq_of_toNat_eq (x := 0#52) hf.symm]
  · exact absurd rfl hx
  · rw [toBits_fraction, ← BitVec.eq_of_toNat_eq (x := 0#11) hzero.symm]
  · exact toBits_normal _ hzero _

end Sys2Proof.Machine.F64
end

section
/-!
The command word and its decode (R51 to R58): the decode row by row, the fields of a word that decodes, so that
decoding and encoding are inverse and the legal words are the nine encodings (O1, O2, O3, O4), and what a CMD write
of an illegal word does.
-/

namespace Sys2Proof

/-! ### The decode, row by row (R57) -/

theorem decodeLineScheme_of_le {scheme : Nat} (h : 5 ≤ scheme) :
    decodeLineScheme scheme = .error .badScheme := by
  obtain ⟨k, rfl⟩ := Nat.exists_eq_add_of_le' h
  rfl

theorem decodeScrambleScheme_of_le {scheme : Nat} (h : 2 ≤ scheme) :
    decodeScrambleScheme scheme = .error .badScheme := by
  obtain ⟨k, rfl⟩ := Nat.exists_eq_add_of_le' h
  rfl

section Rows

variable {w : Word}

theorem decode_of_rsvd_ne (h : rsvdField w ≠ 0#24) : decode w = .error .badOpcode := if_pos h

variable (hr : rsvdField w = 0#24)
include hr

theorem decode_lineEncode (ho : opField w = 0x1#4) : decode w = decodeLineScheme (schemeField w).toNat := by
  rw [decode, if_neg (not_not.2 hr), ho]
  rfl

theorem decode_scramble (ho : opField w = 0x2#4) : decode w = decodeScrambleScheme (schemeField w).toNat := by
  rw [decode, if_neg (not_not.2 hr), ho]
  rfl

theorem decode_pcm (ho : opField w = 0x3#4) :
    decode w = if schemeField w = 0#4 then .ok .pcm else .error .badScheme := by
  rw [decode, if_neg (not_not.2 hr), ho]
  rfl

theorem decode_dm (ho : opField w = 0x4#4) :
    decode w = if schemeField w = 0#4 then .ok .dm else .error .badScheme := by
  rw [decode, if_neg (not_not.2 hr), ho]
  rfl

theorem decode_unassigned_op (ho : opField w = 0x0#4 ∨ 5 ≤ (opField w).toNat) : decode w = .error .badOpcode := by
  rw [decode, if_neg (not_not.2 hr)]
  rcases ho with ho | ho
  · rw [ho]
    rfl
  · obtain ⟨k, hk⟩ := Nat.exists_eq_add_of_le' ho
    rw [hk]
    rfl

end Rows

/-! ### Decoding and encoding are inverse -/

theorem decode_encode (i : Instr) : decode (encode i) = .ok i := by
  cases i <;> rfl

/-- An OP is one of the four operations or not assigned (R52). -/
theorem opField_cases (w : Word) : opField w = 0x1#4 ∨ opField w = 0x2#4 ∨ opField w = 0x3#4 ∨
    opField w = 0x4#4 ∨ opField w = 0x0#4 ∨ 5 ≤ (opField w).toNat := by
  bv_omega

/-- The three fields are the whole of a command word (R51). -/
theorem rsvd_append_scheme_append_op (w : Word) : rsvdField w ++ schemeField w ++ opField w = w := by
  rw [rsvdField, schemeField, opField, BitVec.extractLsb'_append_extractLsb'_eq_extractLsb' (show 8 = 4 + 4 from rfl)]
  exact BitVec.extractLsb'_append_extractLsb'

section Fields

variable {i : Instr}

theorem decodeLineScheme_eq_ok {scheme : Nat} (h : decodeLineScheme scheme = .ok i) :
    scheme = (schemeCode i).toNat ∧ opCode i = 0x1#4 := by
  unfold decodeLineScheme at h
  split at h <;> cases h <;> exact ⟨rfl, rfl⟩

theorem decodeScrambleScheme_eq_ok {scheme : Nat} (h : decodeScrambleScheme scheme = .ok i) :
    scheme = (schemeCode i).toNat ∧ opCode i = 0x2#4 := by
  unfold decodeScrambleScheme at h
  split at h <;> cases h <;> exact ⟨rfl, rfl⟩

/-- A word that decodes has the three fields of its instruction. -/
theorem fields_of_decode_eq_ok {w : Word} (h : decode w = .ok i) :
    rsvdField w = 0#24 ∧ schemeField w = schemeCode i ∧ opField w = opCode i := by
  have hr : rsvdField w = 0#24 := by
    by_contra hr
    rw [decode_of_rsvd_ne hr] at h
    cases h
  refine ⟨hr, ?_⟩
  rcases opField_cases w with ho | ho | ho | ho | ho
  · rw [decode_lineEncode hr ho] at h
    obtain ⟨hs, hi⟩ := decodeLineScheme_eq_ok h
    exact ⟨BitVec.eq_of_toNat_eq hs, ho.trans hi.symm⟩
  · rw [decode_scramble hr ho] at h
    obtain ⟨hs, hi⟩ := decodeScrambleScheme_eq_ok h
    exact ⟨BitVec.eq_of_toNat_eq hs, ho.trans hi.symm⟩
  · rw [decode_pcm hr ho] at h
    split at h <;> cases h
    exact ⟨‹schemeField w = 0#4›, ho⟩
  · rw [decode_dm hr ho] at h
    split at h <;> cases h
    exact ⟨‹schemeField w = 0#4›, ho⟩
  · rw [decode_unassigned_op hr ho] at h
    cases h

/-- A word decodes to an instruction exactly when it is that instruction's word. -/
theorem decode_eq_ok_iff {w : Word} : decode w = .ok i ↔ w = encode i := by
  constructor
  · intro h
    obtain ⟨hr, hs, ho⟩ := fields_of_decode_eq_ok h
    rw [encode, ← hr, ← hs, ← ho, rsvd_append_scheme_append_op]
  · rintro rfl
    exact decode_encode i

end Fields

/-- Settles O1: both directions are the one equivalence `decode_eq_ok_iff`. -/
theorem decodeEncodeAgree : Obligations.DecodeEncodeAgree :=
  ⟨fun i _ => decode_encode i, fun _ _ => decode_eq_ok_iff.1⟩

/-- Settles O2: each word is a closed term that the decoder evaluates. -/
theorem writtenWordsDecode : Obligations.WrittenWordsDecode := by
  unfold Obligations.WrittenWordsDecode
  decide

/-! ### The nine legal words (R58) -/

/-- The instructions in the order of R53 to R55. -/
def Instr.all : List Instr :=
  [.encNrzl, .encNrzi, .encMan, .encDman, .encAmi, .scrB8zs, .scrHdb3, .pcm, .dm]

theorem Instr.mem_all (i : Instr) : i ∈ Instr.all := by
  cases i <;> decide

theorem Instr.map_encode_all : Instr.all.map encode =
    [0x00000001#32, 0x00000011#32, 0x00000021#32, 0x00000031#32, 0x00000041#32, 0x00000002#32, 0x00000012#32,
      0x00000003#32, 0x00000004#32] := by
  decide

theorem exists_decode_eq_ok_iff (w : Word) : (∃ i, decode w = .ok i) ↔ w ∈ Instr.all.map encode := by
  simp only [decode_eq_ok_iff, List.mem_map, Instr.mem_all, true_and, eq_comm (a := w)]

end Sys2Proof

namespace Sys2Proof.Machine

/-- A CMD write of an illegal word is its InvalidInput, and CMD holds the word (R20, R57). -/
theorem step_cmd_illegal {s : State} {w : Word} {rest : List HostAction} {e : Illegal} (hf : s.fault = none)
    (hb : s.status ≠ stateBusy) (hh : s.host = .cmd w :: rest) (hd : decode w = .error e) :
    step s = .next { s with cmd := w, host := rest, status := 3#2, errCause := (illegalCause e).code } := by
  rw [step_access hf hb hh, hostAccess, writeCmd, hd]
  rfl

/-- Settles O3: the legal words are the encodings of the nine instructions, and a word that is none of them
decodes to an error. -/
theorem onlyNineWordsAreLegal : Obligations.OnlyNineWordsAreLegal := by
  intro w
  rw [← Instr.map_encode_all]
  refine ⟨exists_decode_eq_ok_iff w, fun s rest hw hf hb hh => ?_⟩
  cases hd : decode w with
  | ok i => exact absurd ((exists_decode_eq_ok_iff w).1 ⟨i, hd⟩) hw
  | error e => exact ⟨e, rfl, step_cmd_illegal hf hb hh hd⟩

/-- Settles O4: one row of the decode for each OP, and the InvalidInput that an illegal word is. -/
theorem decodeFollowsTheTable : Obligations.DecodeFollowsTheTable := by
  intro w
  refine ⟨decode_of_rsvd_ne, fun hr => ⟨fun ho => ?_, fun ho => ?_, fun ho => ?_, fun ho => ?_,
    decode_unassigned_op hr⟩, fun s rest hf hb hh => ⟨step_cmd_illegal hf hb hh, step_cmd_illegal hf hb hh⟩⟩
  · rw [decode_lineEncode hr ho, schemeField]
    refine ⟨?_, ?_, ?_, ?_, ?_, decodeLineScheme_of_le⟩ <;> (intro hs; rw [hs]; rfl)
  · rw [decode_scramble hr ho, schemeField]
    refine ⟨?_, ?_, decodeScrambleScheme_of_le⟩ <;> (intro hs; rw [hs]; rfl)
  · rw [decode_pcm hr ho]
    exact ⟨fun hs => if_pos hs, fun hs => if_neg hs⟩
  · rw [decode_dm hr ho]
    exact ⟨fun hs => if_pos hs, fun hs => if_neg hs⟩

end Sys2Proof.Machine
end

section
/-!
The expansion of `ldsym` (R61): its stores write the symbols one after another from index 0 on, and the register
write that ends it writes their number (O17).
-/

namespace Sys2Proof.Machine

/-- A step before a run. -/
theorem Runs.head {s t u : State} (hs : step s = .next t) (hr : Runs t u) : Runs s u := by
  induction hr with
  | refl => exact .tail (.refl s) hs
  | tail _ hu ih => exact .tail ih hu

/-- Stores of symbols below N_MAX run to the end, and write their run of SYM and nothing else (R40). -/
theorem runs_storesFrom_stSym {s : State} {start : Nat} {bits : List (BitVec 1)} {rest : List HostAction}
    (hf : s.fault = none) (hb : s.status ≠ stateBusy) (hn : start + bits.length ≤ s.cfg.nMax)
    (hh : s.host = storesFrom .stSym start bits ++ rest) :
    Runs s { s with sym := s.sym.writeFrom start bits, host := rest } := by
  induction bits generalizing s start with
  | nil =>
    obtain rfl : s.host = rest := hh
    exact .refl s
  | cons b bits ih =>
    rw [List.length_cons] at hn
    have hstep := (step_access hf hb hh).trans (writeElement_of_lt (by simp only; omega) _ _)
    exact .head hstep (ih hf hb (by simp only; omega) rfl)

/-- The operand of the length write is the number of elements, where 32 bits hold it. -/
theorem countWord_toNat {n : Nat} (hn : n < 2 ^ 32) : (countWord n).toNat = n := by
  rw [countWord, if_pos hn, BitVec.toNat_ofNat, Nat.mod_eq_of_lt hn]

/-- Settles O17: the stores run, then the write of SYM_LEN, and a run of elements written reads back. -/
theorem ldsymStoresItsSymbols : Obligations.LdsymStoresItsSymbols := by
  intro s bits rest hf hb hn hlt hh
  rw [Pseudo.expand, List.append_assoc] at hh
  have hstores := runs_storesFrom_stSym hf hb (by rwa [Nat.zero_add]) hh
  obtain ⟨hlength, -⟩ := lengthRegisterWrites
    { s with sym := s.sym.writeFrom 0 bits, host := .wr 3 (countWord bits.length) :: rest } rest _ hf hb
  refine ⟨_, hstores.tail (hlength rfl), countWord_toNat hlt, fun i b hi => ?_, fun a ha => ?_, rfl⟩
  · have hlen := (List.getElem?_eq_some_iff.1 hi).1
    exact (Memory.read_writeFrom_zero _ _ _).trans ((if_pos hlen).trans hi)
  · exact Memory.read_writeFrom_above (by rwa [Nat.zero_add])

end Sys2Proof.Machine
end

section
/-!
LINE_ENCODE (spec/40_line_encode.md, O18 to O25). Each train is said by position: NRZ-L and Manchester look at the
symbol alone; the transient sign of NRZ-I, Differential Manchester and AMI is in each case the start sign flipped
once per ONE (R64, R66, R67). What the five commands do around their trains is said once (R62).
-/

namespace Sys2Proof.Machine

/-! ### A sign that flips at each ONE -/

@[simp] theorem flips_zero (p : Polarity) : p.flips 0 = p := rfl

/-- One flip more. -/
theorem flips_succ (p : Polarity) (n : Nat) : p.flips (n + 1) = (p.flips n).neg := by
  rcases Nat.mod_two_eq_zero_or_one n with h | h <;> simp [Polarity.flips, Nat.add_mod, h]

theorem neg_flips (p : Polarity) (n : Nat) : p.neg.flips n = (p.flips n).neg := by
  simp only [Polarity.flips]
  split <;> rfl

theorem flips_of_even (p : Polarity) {n : Nat} (h : n % 2 = 0) : p.flips n = p := if_pos h

theorem flips_of_odd (p : Polarity) {n : Nat} (h : n % 2 = 1) : p.flips n = p.neg := if_neg (by omega)

theorem level_ne_neg_level (p : Polarity) : p.level ≠ p.level.neg := by cases p <;> decide

/-- The transient sign after a symbol: flipped by a ONE, kept by a ZERO (R64, R66, R67). -/
def flipAtOne (p : Polarity) : Symbol → Polarity
  | .one => p.neg
  | .zero => p

@[simp] theorem onesBefore_zero (s : List Symbol) : onesBefore s 0 = 0 := rfl

/-- The number of ONEs up to and with a symbol. -/
theorem onesBefore_succ {s : List Symbol} {i : Nat} {x : Symbol} (h : s[i]? = some x) :
    onesBefore s (i + 1) = onesBefore s i + if x = .one then 1 else 0 := by
  rw [onesBefore, onesBefore, List.take_add_one, h, List.count_append]
  cases x <;> rfl

/-- The flips of a pass over `x :: s` are the flip at `x`, then those of the pass over `s`. -/
theorem flips_onesBefore_cons (p : Polarity) (x : Symbol) (s : List Symbol) (i : Nat) :
    p.flips (onesBefore (x :: s) (i + 1)) = (flipAtOne p x).flips (onesBefore s i) := by
  cases x with
  | one => simp [onesBefore, flipAtOne, flips_succ, neg_flips]
  | zero => simp [onesBefore, flipAtOne]

/-! ### NRZ-L and Manchester by position (R63, R65) -/

/-- The sign of a symbol: HIGH for ONE and LOW for ZERO (R63). -/
def symbolSign : Symbol → Polarity
  | .one => .high
  | .zero => .low

theorem encNrzl_cons (x : Symbol) (s : List Symbol) : encNrzl (x :: s) = (symbolSign x).level :: encNrzl s := by
  cases x <;> rfl

/-- A Manchester pair ends in the level that NRZ-L gives its symbol. -/
theorem encMan_cons (x : Symbol) (s : List Symbol) :
    encMan (x :: s) = (symbolSign x).neg.level :: (symbolSign x).level :: encMan s := by
  cases x <;> rfl

theorem encNrzl_getElem? (s : List Symbol) (i : Nat) :
    (encNrzl s)[i]? = s[i]?.map fun x => (symbolSign x).level := by
  induction s generalizing i with
  | nil => rfl
  | cons x s ih =>
    rw [encNrzl_cons]
    cases i with
    | zero => rfl
    | succ i => exact ih i

theorem encMan_getElem? (s : List Symbol) (i : Nat) :
    (encMan s)[2 * i]? = s[i]?.map (fun x => (symbolSign x).neg.level) ∧
      (encMan s)[2 * i + 1]? = s[i]?.map fun x => (symbolSign x).level := by
  induction s generalizing i with
  | nil => exact ⟨rfl, rfl⟩
  | cons x s ih =>
    rw [encMan_cons]
    cases i with
    | zero => exact ⟨rfl, rfl⟩
    | succ i => exact ih i

/-! ### NRZ-I, Differential Manchester and AMI by position (R64, R66, R67) -/

theorem nrziFrom_cons (p : Polarity) (x : Symbol) (s : List Symbol) :
    nrziFrom p (x :: s) = (flipAtOne p x).level :: nrziFrom (flipAtOne p x) s := by
  cases x <;> rfl

/-- A Differential Manchester pair ends in the level that NRZ-I would give its symbol. -/
theorem dmanFrom_cons (p : Polarity) (x : Symbol) (s : List Symbol) :
    dmanFrom p (x :: s) =
      (flipAtOne p x).neg.level :: (flipAtOne p x).level :: dmanFrom (flipAtOne p x) s := by
  cases x with
  | one => simp [dmanFrom, flipAtOne]
  | zero => simp [dmanFrom, flipAtOne]

/-- What AMI emits for a symbol when the next nonzero pulse has the sign `p` (R67). -/
def amiLevel (p : Polarity) : Symbol → Level
  | .one => p.level
  | .zero => .neutral

theorem amiFrom_cons (p : Polarity) (x : Symbol) (s : List Symbol) :
    amiFrom p (x :: s) = amiLevel p x :: amiFrom (flipAtOne p x) s := by
  cases x <;> rfl

theorem nrziFrom_getElem? (p : Polarity) (s : List Symbol) (i : Nat) :
    (nrziFrom p s)[i]? = s[i]?.map fun _ => (p.flips (onesBefore s (i + 1))).level := by
  induction s generalizing p i with
  | nil => rfl
  | cons x s ih =>
    rw [nrziFrom_cons, flips_onesBefore_cons]
    cases i with
    | zero => rfl
    | succ i => exact ih _ i

theorem dmanFrom_getElem? (p : Polarity) (s : List Symbol) (i : Nat) :
    (dmanFrom p s)[2 * i]? = s[i]?.map (fun _ => (p.flips (onesBefore s (i + 1))).neg.level) ∧
      (dmanFrom p s)[2 * i + 1]? = s[i]?.map fun _ => (p.flips (onesBefore s (i + 1))).level := by
  induction s generalizing p i with
  | nil => exact ⟨rfl, rfl⟩
  | cons x s ih =>
    rw [dmanFrom_cons, flips_onesBefore_cons]
    cases i with
    | zero => exact ⟨rfl, rfl⟩
    | succ i => exact ih _ i

theorem amiFrom_getElem? (p : Polarity) (s : List Symbol) (i : Nat) :
    (amiFrom p s)[i]? = s[i]?.map (amiLevel (p.flips (onesBefore s i))) := by
  induction s generalizing p i with
  | nil => rfl
  | cons x s ih =>
    rw [amiFrom_cons]
    cases i with
    | zero => rfl
    | succ i =>
      rw [flips_onesBefore_cons]
      exact ih _ i

/-! ### What the five commands do around their trains (R62) -/

/-- LINE_ENCODE of a ready state puts the train of its symbols in PUL and its length in PUL_LEN, where 32 bits
hold it, and changes nothing else (R62, R83). -/
theorem lineEncode_completes (enc : List Symbol → List Level) {s : State} {xs : List Symbol}
    (h : s.LineReady xs) :
    ∃ t, lineEncode enc s = .next t ∧
      ((enc xs).length < 2 ^ 32 → t.pulLen.toNat = (enc xs).length) ∧
      (∀ i x, (enc xs)[i]? = some x → t.pul.read i = some (levelCode x)) ∧
      (∀ a, (enc xs).length ≤ a → t.pul.read a = s.pul.read a) ∧
      t = { s with pul := t.pul, pulLen := t.pulLen, status := 2#2, errCause := 0#8 } := by
  refine ⟨(s.putTrain (enc xs)).complete, ?_, lengthWord_toNat, fun i x hx => ?_, fun a ha => ?_, rfl⟩
  · rw [lineEncode, State.lineReady_iff.1 h]
    rfl
  · have hi := (List.getElem?_eq_some_iff.1 hx).1
    rw [State.complete_pul, State.putTrain_pul, Memory.read_writeFrom_zero, trainCodes_length, if_pos hi,
      trainCodes_getElem?, hx, Option.map_some]
  · exact Memory.read_writeFrom_above (by rwa [Nat.zero_add, trainCodes_length])

/-- A register of 32 bits holds the number of symbols of a ready state. -/
theorem State.LineReady.length_lt {s : State} {xs : List Symbol} (h : s.LineReady xs) : xs.length < 2 ^ 32 := by
  obtain ⟨⟨hlen, -⟩, -⟩ := h
  exact hlen ▸ s.symLen.isLt

/-- Settles O18: slot `i` of the train has the sign of symbol `i`. -/
theorem nrzlEncodes : Obligations.NrzlEncodes := by
  intro s xs h
  obtain ⟨t, hexec, hlen, hslot, habove, hframe⟩ := lineEncode_completes encNrzl h
  rw [encNrzl_length] at hlen habove
  refine ⟨t, hexec, hlen h.length_lt, fun i hi => hslot i .high ?_, fun i hi => hslot i .low ?_, habove, hframe⟩
  · rw [encNrzl_getElem?, hi]; rfl
  · rw [encNrzl_getElem?, hi]; rfl

/-- Settles O19: slot `i` of the train is LOW, flipped once per ONE among the symbols 0 to `i`. -/
theorem nrziEncodes : Obligations.NrziEncodes := by
  intro s xs h
  obtain ⟨t, hexec, hlen, hslot, habove, hframe⟩ := lineEncode_completes encNrzi h
  rw [encNrzi_length] at hlen habove
  refine ⟨t, hexec, hlen h.length_lt, fun i hi hodd => hslot i .high ?_, fun i hi heven => hslot i .low ?_,
    habove, hframe⟩
  · rw [encNrzi, nrziFrom_getElem?, List.getElem?_eq_getElem hi, flips_of_odd _ hodd]; rfl
  · rw [encNrzi, nrziFrom_getElem?, List.getElem?_eq_getElem hi, flips_of_even _ heven]; rfl

/-- Settles O20: the pair of a symbol is the negation of its sign, then its sign. -/
theorem manchesterEncodes : Obligations.ManchesterEncodes := by
  intro s xs h
  obtain ⟨t, hexec, hlen, hslot, habove, hframe⟩ := lineEncode_completes encMan h
  rw [encMan_length] at hlen habove
  refine ⟨t, hexec, hlen, fun i hi => ?_, fun i hi => ?_, habove, hframe⟩
  all_goals
    obtain ⟨hfirst, hsecond⟩ := encMan_getElem? xs i
    rw [hi] at hfirst hsecond
    exact ⟨hslot _ _ hfirst, hslot _ _ hsecond⟩

/-- The sign of the first slot of a Differential Manchester pair, as its symbol and the ONEs before it give it. -/
theorem neg_flips_onesBefore_succ (p : Polarity) {s : List Symbol} {i : Nat} {x : Symbol} (h : s[i]? = some x) :
    (p.flips (onesBefore s (i + 1))).neg = p.flips (onesBefore s i + if x = .zero then 1 else 0) := by
  rw [onesBefore_succ h]
  cases x with
  | zero => exact (flips_succ _ _).symm
  | one => exact (congrArg Polarity.neg (flips_succ _ _)).trans (neg_neg_polarity _)

/-- Settles O21: the pair of symbol `i` ends in DMAN_INIT flipped once per ONE among the symbols 0 to `i`. -/
theorem diffManchesterEncodes : Obligations.DiffManchesterEncodes := by
  intro s xs h
  obtain ⟨t, hexec, hlen, hslot, habove, hframe⟩ := lineEncode_completes (encDman s.cfg.dmanInit) h
  rw [encDman_length] at hlen habove
  refine ⟨t, hexec, hlen, fun i x hi => ?_, habove, hframe⟩
  obtain ⟨hfirst, hsecond⟩ := dmanFrom_getElem? s.cfg.dmanInit xs i
  rw [hi] at hfirst hsecond
  simp only [← neg_flips_onesBefore_succ _ hi, neg_neg_polarity]
  exact ⟨hslot _ _ hfirst, hslot _ _ hsecond⟩

/-- Settles O22: slot `i` of the train is NEUTRAL at a ZERO, and at a ONE it is HIGH flipped once per ONE
before it. -/
theorem amiEncodes : Obligations.AmiEncodes := by
  intro s xs h
  obtain ⟨t, hexec, hlen, hslot, habove, hframe⟩ := lineEncode_completes encAmi h
  rw [encAmi_length] at hlen habove
  refine ⟨t, hexec, hlen h.length_lt, fun i hi => hslot i .neutral ?_, fun i hi heven => hslot i .high ?_,
    fun i hi hodd => hslot i .low ?_, habove, hframe⟩
  · rw [encAmi, amiFrom_getElem?, hi]; rfl
  · rw [encAmi, amiFrom_getElem?, hi, flips_of_even _ heven]; rfl
  · rw [encAmi, amiFrom_getElem?, hi, flips_of_odd _ hodd]; rfl

/-! ### When LINE_ENCODE does not complete (R62, R81) -/

theorem lineInput_of_gt {s : State} (h : s.cfg.nMax < s.symLen.toNat) :
    lineInput s = .error (.invalid .capacity) := if_pos h

theorem lineInput_of_eq_zero {s : State} (h : s.symLen.toNat = 0) :
    lineInput s = .error (.invalid .emptyInput) := by
  simp [lineInput, h]

theorem lineInput_of_undef {s : State} (hle : s.symLen.toNat ≤ s.cfg.nMax)
    (hu : ∃ j, j < s.symLen.toNat ∧ s.sym.read j = none) : lineInput s = .error (.fault .undefRead) := by
  have hne : s.symLen.toNat ≠ 0 := by
    obtain ⟨j, hj, -⟩ := hu
    omega
  simp [lineInput, Nat.not_lt.2 hle, hne, State.symbols_eq_none_iff.2 hu]

/-- Each of the five commands ends by the reason why it has no input, whatever its scheme. -/
theorem exec_of_lineInput_eq_error {s : State} {i : Instr} {e : Stop}
    (hi : i = .encNrzl ∨ i = .encNrzi ∨ i = .encMan ∨ i = .encDman ∨ i = .encAmi)
    (h : lineInput s = .error e) : exec i s = endCommand s (.error e) := by
  rw [exec_eq_endCommand]
  rcases hi with rfl | rfl | rfl | rfl | rfl <;> rw [commandResult, h] <;> rfl

/-- Settles O23: the input check answers the first of CAPACITY, EMPTY_INPUT and UNDEF_READ, and the command ends
by it. -/
theorem lineEncodeStops : Obligations.LineEncodeStops := fun _ _ hi =>
  ⟨fun hgt => exec_of_lineInput_eq_error hi (lineInput_of_gt hgt),
    fun hzero => exec_of_lineInput_eq_error hi (lineInput_of_eq_zero hzero),
    fun hle hu => exec_of_lineInput_eq_error hi (lineInput_of_undef hle hu)⟩

/-! ### The laws of the trains (R68) -/

theorem encNrzl_getElem?_eq_high_iff (s : List Symbol) (i : Nat) :
    (encNrzl s)[i]? = some .high ↔ s[i]? = some .one := by
  rw [encNrzl_getElem?]
  rcases s[i]? with _ | _ | _ <;> decide

theorem encNrzl_getElem?_eq_low_iff (s : List Symbol) (i : Nat) :
    (encNrzl s)[i]? = some .low ↔ s[i]? = some .zero := by
  rw [encNrzl_getElem?]
  rcases s[i]? with _ | _ | _ <;> decide

theorem encNrzi_getElem?_zero_eq_high_iff (s : List Symbol) :
    (encNrzi s)[0]? = some .high ↔ s[0]? = some .one := by
  cases s with
  | nil => decide
  | cons x s =>
    rw [encNrzi, nrziFrom_cons, List.getElem?_cons_zero, List.getElem?_cons_zero]
    cases x <;> decide

/-- The level of an NRZ-I train changes exactly at a ONE. -/
theorem encNrzi_getElem?_succ_eq_neg_iff {s : List Symbol} {i : Nat} {x : Symbol} (h : s[i + 1]? = some x) :
    (encNrzi s)[i + 1]? = (encNrzi s)[i]?.map Level.neg ↔ x = .one := by
  have hi : i < s.length := by
    have := (List.getElem?_eq_some_iff.1 h).1
    omega
  rw [encNrzi, nrziFrom_getElem?, nrziFrom_getElem?, h, List.getElem?_eq_getElem hi, onesBefore_succ h]
  cases x with
  | one => simp [flips_succ]
  | zero => simp [level_ne_neg_level]

theorem encMan_pair_differs (s : List Symbol) (i : Nat) :
    (encMan s)[2 * i]? = (encMan s)[2 * i + 1]?.map Level.neg := by
  obtain ⟨hfirst, hsecond⟩ := encMan_getElem? s i
  rw [hfirst, hsecond, Option.map_map]
  simp [Function.comp_def]

theorem encDman_pair_differs (d : Polarity) (s : List Symbol) (i : Nat) :
    (encDman d s)[2 * i]? = (encDman d s)[2 * i + 1]?.map Level.neg := by
  obtain ⟨hfirst, hsecond⟩ := dmanFrom_getElem? d s i
  rw [encDman, hfirst, hsecond, Option.map_map]
  simp [Function.comp_def]

theorem neutral_ne_level (p : Polarity) : Level.neutral ≠ p.level := (level_ne_neutral p).symm

theorem neutral_notMem_cons (p : Polarity) {l : List Level} (h : Level.neutral ∉ l) :
    Level.neutral ∉ p.level :: l :=
  List.not_mem_cons_of_ne_of_not_mem (neutral_ne_level p) h

theorem neutral_notMem_encNrzl (s : List Symbol) : Level.neutral ∉ encNrzl s := by
  induction s with
  | nil => exact List.not_mem_nil
  | cons x s ih =>
    rw [encNrzl_cons]
    exact neutral_notMem_cons _ ih

theorem neutral_notMem_nrziFrom (p : Polarity) (s : List Symbol) : Level.neutral ∉ nrziFrom p s := by
  induction s generalizing p with
  | nil => exact List.not_mem_nil
  | cons x s ih =>
    rw [nrziFrom_cons]
    exact neutral_notMem_cons _ (ih _)

theorem neutral_notMem_encMan (s : List Symbol) : Level.neutral ∉ encMan s := by
  induction s with
  | nil => exact List.not_mem_nil
  | cons x s ih =>
    rw [encMan_cons]
    exact neutral_notMem_cons _ (neutral_notMem_cons _ ih)

theorem neutral_notMem_dmanFrom (p : Polarity) (s : List Symbol) : Level.neutral ∉ dmanFrom p s := by
  induction s generalizing p with
  | nil => exact List.not_mem_nil
  | cons x s ih =>
    rw [dmanFrom_cons]
    exact neutral_notMem_cons _ (neutral_notMem_cons _ (ih _))

/-- Settles O24: each law is read off the train by position, and no slot that a pass emits is NEUTRAL. -/
theorem twoLevelCodeLaws : Obligations.TwoLevelCodeLaws := fun s d =>
  ⟨⟨encNrzl_length s, fun i => ⟨encNrzl_getElem?_eq_high_iff s i, encNrzl_getElem?_eq_low_iff s i⟩⟩,
    ⟨encNrzi_length s, encNrzi_getElem?_zero_eq_high_iff s, fun _ _ => encNrzi_getElem?_succ_eq_neg_iff⟩,
    ⟨encMan_length s, encMan_pair_differs s⟩, ⟨encDman_length d s, encDman_pair_differs d s⟩,
    neutral_notMem_encNrzl s, neutral_notMem_nrziFrom _ s, neutral_notMem_encMan s, neutral_notMem_dmanFrom d s⟩

theorem encAmi_getElem?_eq_neutral_iff (s : List Symbol) (i : Nat) :
    (encAmi s)[i]? = some .neutral ↔ s[i]? = some .zero := by
  rw [encAmi, amiFrom_getElem?]
  rcases s[i]? with _ | _ | _ <;> simp [amiLevel]

/-- Nonzero pulse `k` of an AMI pass is its start sign flipped `k` times. -/
theorem amiFrom_nonzero_getElem? {p : Polarity} {s : List Symbol} {k : Nat} {x : Level}
    (h : ((amiFrom p s).filter fun y => decide (y ≠ .neutral))[k]? = some x) : x = (p.flips k).level := by
  induction s generalizing p k with
  | nil => cases h
  | cons y s ih =>
    cases y with
    | zero => exact ih h
    | one =>
      rw [amiFrom, List.filter_cons_of_pos (by simp)] at h
      cases k with
      | zero => exact (Option.some.inj h).symm
      | succ k => rw [ih h, neg_flips, flips_succ]

/-- An AMI pass emits its start sign as often as the other one, or once more. -/
theorem amiFrom_count_level (p : Polarity) (s : List Symbol) :
    (amiFrom p s).count p.level = (amiFrom p s).count p.neg.level ∨
      (amiFrom p s).count p.level = (amiFrom p s).count p.neg.level + 1 := by
  induction s generalizing p with
  | nil => exact .inl rfl
  | cons y s ih =>
    cases y with
    | zero =>
      rw [amiFrom, List.count_cons_of_ne (neutral_ne_level p), List.count_cons_of_ne (neutral_ne_level p.neg)]
      exact ih p
    | one =>
      have hne : p.level ≠ p.neg.level := neg_level p ▸ level_ne_neg_level p
      have hrest := ih p.neg
      rw [neg_neg_polarity] at hrest
      rw [amiFrom, List.count_cons_self, List.count_cons_of_ne hne]
      omega

/-- Settles O25: the pass starts at HIGH and every nonzero pulse flips the sign of the next. -/
theorem amiAlternates : Obligations.AmiAlternates := by
  refine fun s => ⟨encAmi_length s, encAmi_getElem?_eq_neutral_iff s, fun k x h => ?_, amiFrom_count_level .high s⟩
  rw [amiFrom_nonzero_getElem? h, Polarity.flips]
  split <;> rfl

end Sys2Proof.Machine
end

section
/-!
SCRAMBLE as a command (spec/41_scramble.md R69; O28, O33): the order of its checks, and what it writes when they
pass, whatever the scheme.
-/

namespace Sys2Proof.Machine

/-! ### The input checks (R69, R81) -/

section Checks

variable {s : State}

theorem scrambleInput_of_gt (h : s.cfg.nMax < s.symLen.toNat ∨ s.cfg.pMax < s.pulLen.toNat) :
    scrambleInput encAmi s = .error (.invalid .capacity) := if_pos h

/-- A train that fits in PUL passes the first check when its symbols fit in SYM. -/
theorem not_over_capacity (hn : s.symLen.toNat ≤ s.cfg.nMax) (hp : s.pulLen.toNat ≤ s.cfg.pMax) :
    ¬(s.symLen.toNat > s.cfg.nMax ∨ s.pulLen.toNat > s.cfg.pMax) := by omega

theorem scrambleInput_of_eq_zero (hp : s.pulLen.toNat ≤ s.cfg.pMax) (h : s.symLen.toNat = 0) :
    scrambleInput encAmi s = .error (.invalid .emptyInput) :=
  (if_neg (not_over_capacity (h ▸ Nat.zero_le _) hp)).trans (if_pos h)

theorem scrambleInput_of_length_ne (hpos : s.symLen.toNat ≠ 0) (hn : s.symLen.toNat ≤ s.cfg.nMax)
    (hp : s.pulLen.toNat ≤ s.cfg.pMax) (h : s.pulLen ≠ s.symLen) :
    scrambleInput encAmi s = .error (.invalid .lengthMismatch) :=
  (if_neg (not_over_capacity hn hp)).trans
    ((if_neg hpos).trans (if_pos fun heq => h (BitVec.eq_of_toNat_eq heq)))

/-- PUL has room for a train of equal length when SYM has room for the symbols. -/
theorem pulLen_le_pMax (hn : s.symLen.toNat ≤ s.cfg.nMax) (heq : s.pulLen = s.symLen) :
    s.pulLen.toNat ≤ s.cfg.pMax := by
  rw [heq, Config.pMax]
  omega

theorem scrambleInput_of_undef (hn : s.symLen.toNat ≤ s.cfg.nMax) (heq : s.pulLen = s.symLen)
    (hu : ∃ j, j < s.symLen.toNat ∧ (s.sym.read j = none ∨ s.pul.read j = none)) :
    scrambleInput encAmi s = .error (.fault .undefRead) := by
  obtain ⟨j, hj, hundef⟩ := hu
  have hcap := not_over_capacity hn (pulLen_le_pMax hn heq)
  have hlen : ¬s.pulLen.toNat ≠ s.symLen.toNat := not_not_intro (congrArg BitVec.toNat heq)
  have hpos : s.symLen.toNat ≠ 0 := by omega
  simp only [scrambleInput, if_neg hcap, if_neg hpos, if_neg hlen]
  rcases hundef with hsym | hpul
  · rw [State.symbols_eq_none_iff.2 ⟨j, hj, hsym⟩]
  · rw [Memory.readFrom_eq_none_iff.2 ⟨j, hj, by rwa [Nat.zero_add]⟩]
    cases s.symbols s.symLen.toNat <;> rfl

/-- Defined codes that are not those of the AMI train end in NOT_AMI. -/
theorem scrambleInput_of_not_ami {xs : List Symbol} {codes : List (BitVec 2)} (h : s.LineReady xs)
    (heq : s.pulLen = s.symLen) (hcodes : s.pul.readFrom 0 s.symLen.toNat = some codes)
    (hne : codes ≠ trainCodes (encAmi xs)) : scrambleInput encAmi s = .error (.invalid .notAmi) := by
  obtain ⟨hn, hpos, hsyms⟩ := lineInput_eq_ok_iff.1 (State.lineReady_iff.1 h)
  have hcap := not_over_capacity hn (pulLen_le_pMax hn heq)
  have hlen : ¬s.pulLen.toNat ≠ s.symLen.toNat := not_not_intro (congrArg BitVec.toNat heq)
  simp only [scrambleInput, if_neg hcap, if_neg hpos, if_neg hlen, hsyms, hcodes, if_neg hne]

end Checks

/-- Either scheme ends by the reason why it has no input. -/
theorem exec_of_scrambleInput_eq_error {s : State} {i : Instr} {e : Stop} (hi : i = .scrB8zs ∨ i = .scrHdb3)
    (h : scrambleInput encAmi s = .error e) : exec i s = endCommand s (.error e) := by
  rw [exec_eq_endCommand]
  rcases hi with rfl | rfl <;> rw [commandResult, h] <;> rfl

/-- The slots of an AMI train by position (R67). -/
theorem encAmi_getElem?_amiSlot (s : List Symbol) (i : Nat) :
    (encAmi s)[i]? = s[i]?.map fun _ => amiSlot s i := by
  rw [encAmi, amiFrom_getElem?, amiSlot]
  rcases s[i]? with _ | _ | _ <;> rfl

/-- Settles O28: the input check answers the first of the five reasons, and the command ends by it. -/
theorem scrambleStops : Obligations.ScrambleStops := by
  refine fun s i hi =>
    ⟨fun hgt => exec_of_scrambleInput_eq_error hi (scrambleInput_of_gt hgt),
      fun hp hzero => exec_of_scrambleInput_eq_error hi (scrambleInput_of_eq_zero hp hzero),
      fun hpos hn hp hne => exec_of_scrambleInput_eq_error hi (scrambleInput_of_length_ne hpos.ne' hn hp hne),
      fun hn heq hu => exec_of_scrambleInput_eq_error hi (scrambleInput_of_undef hn heq hu),
      fun xs hready heq hdef hother => exec_of_scrambleInput_eq_error (e := .invalid .notAmi) hi ?_⟩
  obtain ⟨⟨hlen, -⟩, -⟩ := id hready
  obtain ⟨codes, hcodes⟩ : ∃ codes, s.pul.readFrom 0 s.symLen.toNat = some codes := by
    refine Option.ne_none_iff_exists'.1 fun hnone => ?_
    obtain ⟨j, hj, hu⟩ := Memory.readFrom_eq_none_iff.1 hnone
    exact hdef j (hlen ▸ hj) (by rwa [Nat.zero_add] at hu)
  refine scrambleInput_of_not_ami hready heq hcodes fun hami => ?_
  obtain ⟨j, hj, hslot⟩ := hother
  have hread := (Memory.readFrom_eq_some_iff.1 hcodes).2 j (by omega)
  rw [Nat.zero_add, hami, trainCodes_getElem?, encAmi_getElem?_amiSlot, List.getElem?_eq_getElem hj] at hread
  exact hslot hread

/-! ### What the two commands write (R69) -/

/-- On a ready state SCRAMBLE completes with the scheme's train in PUL. -/
theorem scramble_of_ready (scr : List Symbol → List Level) {s : State} {xs : List Symbol}
    (h : s.ScrambleReady xs) : scramble scr s = .next (s.rewriteTrain (scr xs)).complete := by
  rw [scramble, State.scrambleReady_iff.1 h]
  rfl

/-- Below its length a rewritten train reads as the train. -/
theorem rewriteTrain_read (s : State) {p : List Level} {a : Nat} (ha : a < p.length) :
    (s.rewriteTrain p).pul.read a = p[a]?.map levelCode := by
  rw [State.rewriteTrain_pul, Memory.read_writeFrom_zero, trainCodes_length, if_pos ha, trainCodes_getElem?]

/-- From its length on a rewritten train leaves PUL alone. -/
theorem rewriteTrain_read_above (s : State) {p : List Level} {a : Nat} (ha : p.length ≤ a) :
    (s.rewriteTrain p).pul.read a = s.pul.read a :=
  Memory.read_writeFrom_above (by rwa [Nat.zero_add, trainCodes_length])

/-- Once PUL holds a train of the right length other than AMI's, the next SCRAMBLE ends in NOT_AMI. -/
theorem scrambleInput_rewriteTrain {s : State} {xs : List Symbol} {out : List Level} (h : s.ScrambleReady xs)
    (hlen : out.length = xs.length) (hne : out ≠ encAmi xs) :
    scrambleInput encAmi (s.rewriteTrain out).complete = .error (.invalid .notAmi) := by
  obtain ⟨hready, ⟨hpul, -⟩⟩ := h
  obtain ⟨⟨hsym, -⟩, -⟩ := id hready
  have heq : s.pulLen = s.symLen := BitVec.eq_of_toNat_eq (by rw [hpul, hsym, encAmi_length])
  have hcodes : (s.rewriteTrain out).pul.readFrom 0 s.symLen.toNat = some (trainCodes out) := by
    refine Memory.readFrom_eq_some_iff.2 ⟨by rw [trainCodes_length, hlen, hsym], fun j hj => ?_⟩
    rw [Nat.zero_add, rewriteTrain_read s (by omega), trainCodes_getElem?]
  exact scrambleInput_of_not_ami hready heq hcodes fun h' => hne (trainCodes_injective h')

/-- Settles O33: the first SCRAMBLE leaves a train that is not AMI's, which the check of the second refuses. -/
theorem secondScrambleIsRefused : Obligations.SecondScrambleIsRefused := by
  intro s xs i j h hi hj
  have hrefuse : ∀ out : List Level, out.length = xs.length → out ≠ encAmi xs →
      exec j (s.rewriteTrain out).complete =
        .next { (s.rewriteTrain out).complete with status := 3#2, errCause := 10#8 } := fun out hlen hne =>
    exec_of_scrambleInput_eq_error hj (scrambleInput_rewriteTrain h hlen hne)
  obtain ⟨rfl, hne⟩ | ⟨rfl, hne⟩ := hi
  · exact ⟨_, scramble_of_ready _ h, rfl, hrefuse _ (scrB8zs_length _ _) hne⟩
  · exact ⟨_, scramble_of_ready _ h, rfl, hrefuse _ (scrHdb3_length _ _) hne⟩

end Sys2Proof.Machine
end

section
/-!
The blocks of ZEROs that SCRAMBLE substitutes, by position (90_conflicts.md C4), and the B8ZS train
(spec/41_scramble.md R70, O26).
-/

namespace Sys2Proof.Machine

/-- The number of consecutive ZERO symbols just before index `i`. -/
def zerosBefore (s : List Symbol) : Nat → Nat
  | 0 => 0
  | i + 1 => zerosEndingAt s i

section Blocks

variable {k : Nat} {s : List Symbol} {i : Nat}

theorem ne_one_of_zero (h : s[i]? = some .zero) : s[i]? ≠ some .one := by simp [h]

theorem ne_zero_of_one (h : s[i]? = some .one) : s[i]? ≠ some .zero := by simp [h]

theorem zerosEndingAt_of_zero (h : s[i]? = some .zero) : zerosEndingAt s i = zerosBefore s i + 1 := by
  cases i <;> simp [zerosEndingAt, zerosBefore, h]

theorem zerosEndingAt_of_ne (h : s[i]? ≠ some .zero) : zerosEndingAt s i = 0 := by
  cases i <;> simp [zerosEndingAt, h]

theorem zerosEndingAt_pos : 0 < zerosEndingAt s i ↔ s[i]? = some .zero := by
  refine ⟨fun h => ?_, fun h => zerosEndingAt_of_zero h ▸ Nat.succ_pos _⟩
  by_contra hne
  exact h.ne' (zerosEndingAt_of_ne hne)

/-- Inside a run the count of ZEROs goes up with the index. -/
theorem zerosEndingAt_add {m : Nat} (h : m < zerosEndingAt s (i + m)) :
    zerosEndingAt s (i + m) = zerosEndingAt s i + m := by
  induction m with
  | zero => rfl
  | succ m ih =>
    have hz := zerosEndingAt_of_zero (zerosEndingAt_pos.1 (Nat.zero_lt_of_lt h))
    have hb : zerosBefore s (i + (m + 1)) = zerosEndingAt s (i + m) := rfl
    have := ih (by omega)
    omega

theorem zerosEndingAt_le (s : List Symbol) (i : Nat) : zerosEndingAt s i ≤ i + 1 := by
  induction i with
  | zero => unfold zerosEndingAt; split <;> omega
  | succ i ih => unfold zerosEndingAt; split <;> omega

theorem blockEnds_iff : blockEnds k s i = true ↔ 0 < zerosEndingAt s i ∧ zerosEndingAt s i % k = 0 := by
  simp [blockEnds]

theorem blockEnds_of_ne (h : s[i]? ≠ some .zero) : blockEnds k s i = false := by
  simp [blockEnds, zerosEndingAt_of_ne h]

/-- A ZERO ends a block exactly when the counter of the scan, which restarts after each block, reaches `k`. -/
theorem blockEnds_of_zero (hk : 0 < k) (h : s[i]? = some .zero) :
    blockEnds k s i = decide (zerosBefore s i % k + 1 = k) := by
  obtain ⟨k, rfl⟩ := Nat.exists_eq_add_one.2 hk
  simp [blockEnds, zerosEndingAt_of_zero h, Nat.succ_mod_succ_eq_zero_iff]

/-- A block of `k` has `k` ZEROs at its end. -/
theorem le_zerosEndingAt_of_blockEnds (h : blockEnds k s i = true) : k ≤ zerosEndingAt s i := by
  obtain ⟨hpos, hmod⟩ := blockEnds_iff.1 h
  exact Nat.le_of_dvd hpos (Nat.dvd_of_mod_eq_zero hmod)

theorem le_of_blockEnds (h : blockEnds k s i = true) : k ≤ i + 1 :=
  (le_zerosEndingAt_of_blockEnds h).trans (zerosEndingAt_le s i)

/-- The slots of a block are ZEROs. -/
theorem zero_of_blockEnds {m : Nat} (h : blockEnds k s (i + m) = true) (hm : m < k) : s[i]? = some .zero := by
  have hle := le_zerosEndingAt_of_blockEnds h
  have := zerosEndingAt_add (Nat.lt_of_lt_of_le hm hle)
  exact zerosEndingAt_pos.1 (by omega)

/-- Blocks of `k` do not overlap: within `k` slots at most one ends. -/
theorem blockEnds_unique {m : Nat} (h : blockEnds k s (i + m) = true) (hm : m < k) (hpos : 0 < m) :
    blockEnds k s i = false := by
  by_contra hi
  obtain ⟨-, hmod⟩ := blockEnds_iff.1 (Bool.eq_true_of_not_eq_false hi)
  have hadd := zerosEndingAt_add (Nat.lt_of_lt_of_le hm (le_zerosEndingAt_of_blockEnds h))
  have hmod' := (blockEnds_iff.1 h).2
  rw [hadd, Nat.add_mod, hmod, Nat.zero_add, Nat.mod_mod, Nat.mod_eq_of_lt hm] at hmod'
  omega

/-- Among `k` ZEROs in a row one ends a block of `k`. -/
theorem exists_blockEnds (hk : 0 < k) (h : ∀ m, m < k → s[i + m]? = some .zero) :
    ∃ m, m < k ∧ blockEnds k s (i + m) = true := by
  have hcount : ∀ m, m < k → zerosEndingAt s (i + m) = zerosEndingAt s i + m := by
    intro m
    induction m with
    | zero => exact fun _ => rfl
    | succ m ih =>
      intro hm
      have := ih (by omega)
      rw [zerosEndingAt_of_zero (h _ hm)]
      exact congrArg (· + 1) this
  have hstep : ∀ m, m < k → (zerosEndingAt s i + m) % k = 0 → blockEnds k s (i + m) = true := fun m hm hmod =>
    blockEnds_iff.2 ⟨zerosEndingAt_pos.2 (h m hm), (hcount m hm).symm ▸ hmod⟩
  have hlt := Nat.mod_lt (zerosEndingAt s i) hk
  have hdiv := Nat.div_add_mod (zerosEndingAt s i) k
  refine ⟨(k - zerosEndingAt s i % k) % k, Nat.mod_lt _ hk, hstep _ (Nat.mod_lt _ hk) ?_⟩
  rw [Nat.add_mod_mod, show zerosEndingAt s i + (k - zerosEndingAt s i % k) = k * (zerosEndingAt s i / k + 1) by
    rw [Nat.mul_succ]; omega, Nat.mul_mod_right]

theorem blocksBefore_succ (k : Nat) (s : List Symbol) (n : Nat) :
    blocksBefore k s (n + 1) = blocksBefore k s n + if blockEnds k s n then 1 else 0 := by
  simp [blocksBefore, List.range_succ, List.countP_append, List.countP_singleton]

/-- The counter of a scan goes up at a ZERO and restarts when a block is complete (R70, R71). -/
theorem zerosBefore_succ_mod (hk : 0 < k) (h : s[i]? = some .zero) :
    zerosBefore s (i + 1) % k = if blockEnds k s i then 0 else zerosBefore s i % k + 1 := by
  have hlt := Nat.mod_lt (zerosBefore s i) hk
  rw [zerosBefore, blockEnds_of_zero hk h, zerosEndingAt_of_zero h, ← Nat.mod_add_mod]
  by_cases hfull : zerosBefore s i % k + 1 = k
  · simp [hfull]
  · simp only [hfull, decide_false, Bool.false_eq_true, if_false]
    exact Nat.mod_eq_of_lt (by omega)

theorem zerosBefore_mod_of_blockEnds (hk : 0 < k) (h : blockEnds k s i = true) : zerosBefore s i % k + 1 = k := by
  rw [blockEnds_of_zero hk (zero_of_blockEnds (m := 0) h hk)] at h
  exact of_decide_eq_true h

/-- The ZEROs that the counter counts end no block. -/
theorem pending_zero {n : Nat} (hk : 0 < k) (hi : i < n) (hpending : n ≤ i + zerosBefore s n % k) :
    s[i]? = some .zero ∧ blockEnds k s i = false := by
  obtain ⟨m, rfl⟩ := Nat.exists_eq_add_of_lt hi
  have hb : zerosBefore s (i + m + 1) = zerosEndingAt s (i + m) := rfl
  rw [hb] at hpending
  have hlt := Nat.mod_lt (zerosEndingAt s (i + m)) hk
  have hle := Nat.mod_le (zerosEndingAt s (i + m)) k
  have hadd := zerosEndingAt_add (show m < zerosEndingAt s (i + m) by omega)
  refine ⟨zerosEndingAt_pos.1 (by omega), Bool.eq_false_iff.2 fun hends => ?_⟩
  have hmod := (blockEnds_iff.1 hends).2
  have hm := Nat.mod_le m k
  rw [hadd, Nat.add_mod, hmod, Nat.zero_add, Nat.mod_mod] at hpending
  omega

/-- The scan's view at index `n`: the blocks that end before it are the ones that it has substituted. -/
def blockEndsBefore (k : Nat) (s : List Symbol) (n i : Nat) : Bool := decide (i < n) && blockEnds k s i

@[simp] theorem blockEndsBefore_of_le {n : Nat} (h : n ≤ i) : blockEndsBefore k s n i = false := by
  simp [blockEndsBefore, Nat.not_lt.2 h]

theorem blockEndsBefore_length (k : Nat) (s : List Symbol) (i : Nat) :
    blockEndsBefore k s s.length i = blockEnds k s i := by
  by_cases hi : i < s.length
  · simp [blockEndsBefore, hi]
  · have hne : s[i]? ≠ some .zero := by simp [List.getElem?_eq_none (Nat.not_lt.1 hi)]
    rw [blockEndsBefore_of_le (Nat.not_lt.1 hi), blockEnds_of_ne hne]

theorem blockEndsBefore_succ (k : Nat) (s : List Symbol) (n i : Nat) :
    blockEndsBefore k s (n + 1) i = if i = n then blockEnds k s n else blockEndsBefore k s n i := by
  unfold blockEndsBefore
  split
  · simp [*]
  · rename_i hi
    have hlt : i < n + 1 ↔ i < n := by omega
    simp only [hlt]

theorem blockEndsBefore_succ_of_not {n : Nat} (h : blockEnds k s n = false) :
    blockEndsBefore k s (n + 1) = blockEndsBefore k s n := by
  funext i
  rw [blockEndsBefore_succ]
  split
  · rename_i hi
    rw [h, hi, blockEndsBefore_of_le le_rfl]
  · rfl

/-- No block has been substituted within a block that ends at `n`. -/
theorem blockEndsBefore_of_block {n : Nat} (h : blockEnds k s n = true) (hin : n < i + k) :
    blockEndsBefore k s n i = false := by
  by_cases hi : i < n
  · obtain ⟨m, rfl⟩ := Nat.exists_eq_add_of_lt hi
    rw [blockEndsBefore, blockEnds_unique (m := m + 1) h (by omega) m.succ_pos, Bool.and_false]
  · exact blockEndsBefore_of_le (Nat.not_lt.1 hi)

end Blocks

/-! ### A scan, symbol by symbol -/

/-- What a scan's turn on symbol `n` carries from index `n` to `n + 1` holds at the end of the symbols. -/
theorem foldl_induction_index {α β : Type} {f : β → α → β} {P : Nat → β → Prop} {l : List α} {b : β}
    (hinit : P 0 b) (hstep : ∀ n x z, l[n]? = some x → P n z → P (n + 1) (f z x)) :
    P l.length (l.foldl f b) := by
  induction l using List.reverseRecOn with
  | nil => exact hinit
  | append_singleton l x ih =>
    rw [List.foldl_concat, List.length_append]
    refine hstep _ x _ List.getElem?_concat_length (ih fun n y z hy hz => hstep n y z ?_ hz)
    rw [List.getElem?_append_left (List.getElem?_eq_some_iff.1 hy).1, hy]

/-! ### B8ZS (R70) -/

theorem overwrite_getElem?_below {out : List Level} {start j : Nat} {p : List Level} (h : j < start) :
    (overwrite out start p)[j]? = out[j]? := by
  induction p generalizing out start with
  | nil => rfl
  | cons x p ih => rw [overwrite, ih (by omega), List.getElem?_set_ne (by omega)]

theorem overwrite_getElem?_above {out : List Level} {start j : Nat} {p : List Level}
    (h : start + p.length ≤ j) : (overwrite out start p)[j]? = out[j]? := by
  induction p generalizing out start with
  | nil => rfl
  | cons x p ih =>
    rw [List.length_cons] at h
    rw [overwrite, ih (by omega), List.getElem?_set_ne (by omega)]

theorem overwrite_getElem?_add {out : List Level} {start m : Nat} {p : List Level} (hm : m < p.length)
    (h : start + m < out.length) : (overwrite out start p)[start + m]? = p[m]? := by
  induction p generalizing out start m with
  | nil => cases hm
  | cons x p ih =>
    cases m with
    | zero =>
      rw [overwrite, overwrite_getElem?_below (by omega)]
      exact List.getElem?_set_self h
    | succ m =>
      rw [List.length_cons] at hm
      rw [overwrite, show start + (m + 1) = start + 1 + m by omega, ih (by omega) (by simp; omega)]
      rfl

/-- The slot `i` of the train of a B8ZS scan at index `n`. -/
def b8zsSlotBefore (first : Polarity) (s : List Symbol) (n i : Nat) : Level :=
  if blockEndsBefore 8 s n i then (first.flips (blocksBefore 8 s i)).level
  else if blockEndsBefore 8 s n (i + 4) then (first.flips (blocksBefore 8 s (i + 4))).level
  else amiSlot s i

section B8zsSlots

variable {first : Polarity} {s : List Symbol} {n i : Nat}

theorem b8zsSlotBefore_zero : b8zsSlotBefore first s 0 i = amiSlot s i := by simp [b8zsSlotBefore]

theorem b8zsSlotBefore_length : b8zsSlotBefore first s s.length i = b8zsSlot first s i := by
  simp only [b8zsSlotBefore, blockEndsBefore_length, b8zsSlot]

theorem b8zsSlotBefore_succ_of_not (h : blockEnds 8 s n = false) :
    b8zsSlotBefore first s (n + 1) i = b8zsSlotBefore first s n i := by
  simp only [b8zsSlotBefore, blockEndsBefore_succ_of_not h]

theorem amiSlot_of_ne (h : s[i]? ≠ some .one) : amiSlot s i = .neutral := if_neg h

/-- A block that ends at `n` puts its sign in its slots 3 and 7. -/
theorem b8zsSlotBefore_succ_of_block (h : blockEnds 8 s n = true) :
    b8zsSlotBefore first s (n + 1) i =
      if i = n ∨ i + 4 = n then (first.flips (blocksBefore 8 s n)).level else b8zsSlotBefore first s n i := by
  simp only [b8zsSlotBefore, blockEndsBefore_succ]
  by_cases hi : i = n
  · simp [hi, h]
  · by_cases hi4 : i + 4 = n
    · have hfree := blockEndsBefore_of_block h (show n < i + 8 by omega)
      simp [hi, hi4, h, hfree]
    · simp [hi, hi4]

/-- The slots of a block are NEUTRAL until the block is complete. -/
theorem b8zsSlotBefore_of_block {m : Nat} (h : blockEnds 8 s (i + m) = true) (hm : m < 8) :
    b8zsSlotBefore first s (i + m) i = .neutral := by
  have hzero := zero_of_blockEnds h hm
  rw [b8zsSlotBefore, blockEndsBefore_of_block h (by omega), blockEndsBefore_of_block h (by omega),
    amiSlot_of_ne (ne_one_of_zero hzero)]
  rfl

end B8zsSlots

/-- The state of the B8ZS scan at index `n` (R70). -/
structure B8zsScan.At (first : Polarity) (s : List Symbol) (n : Nat) (z : B8zsScan) : Prop where
  index : z.i = n
  zeroCount : z.zeroCount = zerosBefore s n % 8
  sign : b8zsSign first z.flag = first.flips (blocksBefore 8 s n)
  slot : ∀ j, z.out[j]? = s[j]?.map fun _ => b8zsSlotBefore first s n j

theorem b8zsSign_not (first : Polarity) (flag : Bool) : b8zsSign first (!flag) = (b8zsSign first flag).neg := by
  cases flag <;> simp [b8zsSign]

/-- A turn on a symbol that completes no block leaves the train alone. -/
theorem B8zsScan.At.succ_of_not {first : Polarity} {s : List Symbol} {n c : Nat} {z : B8zsScan}
    (h : z.At first s n) (hblock : blockEnds 8 s n = false) (hc : c = zerosBefore s (n + 1) % 8) :
    B8zsScan.At first s (n + 1) { z with i := z.i + 1, zeroCount := c } where
  index := congrArg (· + 1) h.index
  zeroCount := hc
  sign := by rw [blocksBefore_succ, hblock]; exact h.sign
  slot j := by rw [b8zsSlotBefore_succ_of_not hblock]; exact h.slot j

/-- A turn that completes a block writes its eight slots. -/
theorem B8zsScan.At.slot_of_block {first : Polarity} {s : List Symbol} {n : Nat} {z : B8zsScan}
    (h : z.At first s n) (hblock : blockEnds 8 s n = true) (j : Nat) :
    (overwrite z.out (n - 7) (b8zsPattern (b8zsSign first z.flag)))[j]? =
      s[j]?.map fun _ => b8zsSlotBefore first s (n + 1) j := by
  obtain ⟨a, rfl⟩ : ∃ a, n = a + 7 := ⟨n - 7, by have := le_of_blockEnds hblock; omega⟩
  rw [Nat.add_sub_cancel, b8zsSlotBefore_succ_of_block hblock, h.sign]
  by_cases hlow : j < a
  · rw [overwrite_getElem?_below hlow, h.slot, if_neg (by omega)]
  by_cases hhigh : a + 8 ≤ j
  · rw [overwrite_getElem?_above hhigh, h.slot, if_neg (by omega)]
  obtain ⟨m, rfl, hm⟩ : ∃ m, j = a + m ∧ m < 8 := ⟨j - a, by omega, by omega⟩
  obtain ⟨r, hr⟩ : ∃ r, a + 7 = a + m + r := ⟨7 - m, by omega⟩
  have hzero : s[a + m]? = some .zero := zero_of_blockEnds (hr ▸ hblock) (by omega)
  have hlt : a + m < z.out.length := by
    have := h.slot (a + m)
    rw [hzero] at this
    exact (List.getElem?_eq_some_iff.1 this).1
  have hneutral : b8zsSlotBefore first s (a + 7) (a + m) = .neutral := by
    rw [hr]
    exact b8zsSlotBefore_of_block (hr ▸ hblock) (by omega)
  rw [overwrite_getElem?_add hm hlt, hzero, hneutral]
  interval_cases m <;> simp [b8zsPattern]

theorem B8zsScan.At.succ {first : Polarity} {s : List Symbol} {n : Nat} {x : Symbol} {z : B8zsScan}
    (hx : s[n]? = some x) (h : z.At first s n) : (b8zsStep first z x).At first s (n + 1) := by
  cases x with
  | one =>
    have hne := ne_zero_of_one hx
    exact h.succ_of_not (blockEnds_of_ne hne) (by rw [zerosBefore, zerosEndingAt_of_ne hne])
  | zero =>
    have hcount := zerosBefore_succ_mod (k := 8) (by decide) hx
    have hends := blockEnds_of_zero (k := 8) (by decide) hx
    rw [b8zsStep, h.zeroCount]
    split
    · rename_i hfull
      have hblock : blockEnds 8 s n = true := hends.trans (decide_eq_true hfull)
      exact
        { index := congrArg (· + 1) h.index
          zeroCount := by rw [hcount, hblock]; rfl
          sign := by rw [b8zsSign_not, h.sign, blocksBefore_succ, hblock]; exact (flips_succ _ _).symm
          slot := h.index ▸ h.slot_of_block hblock }
    · rename_i hfull
      have hblock : blockEnds 8 s n = false := hends.trans (decide_eq_false hfull)
      exact h.succ_of_not hblock (by rw [hcount, hblock]; rfl)

/-- The slots of a B8ZS train by position (R70). -/
theorem scrB8zs_getElem? (first : Polarity) (s : List Symbol) (i : Nat) :
    (scrB8zs first s)[i]? = s[i]?.map fun _ => b8zsSlot first s i := by
  have hinit : B8zsScan.At first s 0 { i := 0, zeroCount := 0, flag := false, out := encAmi s } :=
    { index := rfl, zeroCount := rfl, sign := rfl
      slot := fun j => by rw [b8zsSlotBefore_zero]; exact encAmi_getElem?_amiSlot s j }
  have hend := foldl_induction_index (P := B8zsScan.At first s) hinit fun n x z hx hz => hz.succ hx
  rw [← b8zsSlotBefore_length]
  exact hend.slot i

/-- Settles O26: the train that the scan leaves is the one given by position. -/
theorem b8zsScrambles : Obligations.B8zsScrambles := by
  intro s xs h
  refine ⟨_, scramble_of_ready _ h, fun i hi => ?_, fun a ha => ?_, rfl⟩
  · exact (rewriteTrain_read s (by rwa [scrB8zs_length])).trans
      (by rw [scrB8zs_getElem?, List.getElem?_eq_getElem hi]; rfl)
  · exact rewriteTrain_read_above s (by rwa [scrB8zs_length])

end Sys2Proof.Machine
end

section
/-!
The HDB3 train (spec/41_scramble.md R71, O27) and the laws of both schemes (R72; O29, O30, O31).
-/

namespace Sys2Proof.Machine

/-! ### The last nonzero pulse -/

section LastPulse

variable {out out' : List Level} {i : Nat}

theorem lastPulse_succ_of_level {p : Polarity} (h : out[i]? = some p.level) : lastPulse out (i + 1) = p.level := by
  rw [lastPulse, h]
  cases p <;> rfl

theorem lastPulse_succ_of_neutral (h : out[i]? = some .neutral) : lastPulse out (i + 1) = lastPulse out i := by
  rw [lastPulse, h]

theorem lastPulse_congr (h : ∀ j, j < i → out[j]? = out'[j]?) : lastPulse out i = lastPulse out' i := by
  induction i with
  | zero => rfl
  | succ i ih => rw [lastPulse, lastPulse, h i i.lt_succ_self, ih fun j hj => h j (hj.trans i.lt_succ_self)]

theorem lastPulse_set {x : Level} {n : Nat} (h : i ≤ n) : lastPulse (out.set n x) i = lastPulse out i :=
  lastPulse_congr fun _ hj => List.getElem?_set_ne (by omega)

theorem exists_lastPulse_eq_level (out : List Level) (i : Nat) : ∃ p : Polarity, lastPulse out i = p.level := by
  induction i with
  | zero => exact ⟨.low, rfl⟩
  | succ i ih =>
    rw [lastPulse]
    split
    · exact ⟨.high, rfl⟩
    · exact ⟨.low, rfl⟩
    · exact ih
    · exact ih

end LastPulse

/-! ### The settled part of a train -/

/-- Below `m` each slot of the train is the one that `f` gives by the last nonzero pulse before it, whose sign at
`m` is `prev`; from `m` on the train is still AMI's. -/
structure Settled (f : Level → Nat → Level) (s : List Symbol) (m : Nat) (prev : Polarity) (out : List Level) :
    Prop where
  length : out.length = s.length
  prev : lastPulse out m = prev.level
  slot : ∀ j, j < m → out[j]? = some (f (lastPulse out j) j)
  ahead : ∀ j, m ≤ j → out[j]? = (encAmi s)[j]?

section SettledSteps

variable {f : Level → Nat → Level} {s : List Symbol} {m n : Nat} {prev : Polarity} {out : List Level}

/-- Writing the pulse that `f` asks for settles one slot more. -/
theorem Settled.set (h : Settled f s m prev out) (hm : m < s.length) {q : Polarity}
    (hq : f prev.level m = q.level) : Settled f s (m + 1) q (out.set m q.level) where
  length := by rw [List.length_set, h.length]
  prev := lastPulse_succ_of_level (List.getElem?_set_self (h.length ▸ hm))
  slot j hj := by
    rw [lastPulse_set (by omega)]
    obtain hlt | rfl := Nat.lt_succ_iff_lt_or_eq.1 hj
    · rw [List.getElem?_set_ne hlt.ne', h.slot j hlt]
    · rw [List.getElem?_set_self (h.length ▸ hm), h.prev, hq]
  ahead j hj := by rw [List.getElem?_set_ne (by omega), h.ahead j (by omega)]

/-- Where `f` asks for NEUTRAL at a ZERO nothing is to be written. -/
theorem Settled.skip (h : Settled f s m prev out) (hzero : s[m]? = some .zero)
    (hf : f prev.level m = .neutral) : Settled f s (m + 1) prev out := by
  have hout : out[m]? = some .neutral := (h.ahead m le_rfl).trans ((encAmi_getElem?_eq_neutral_iff s m).2 hzero)
  refine ⟨h.length, (lastPulse_succ_of_neutral hout).trans h.prev, fun j hj => ?_, fun j hj => h.ahead j (by omega)⟩
  obtain hlt | rfl := Nat.lt_succ_iff_lt_or_eq.1 hj
  · exact h.slot j hlt
  · rw [hout, h.prev, hf]

theorem Settled.skip_to (h : Settled f s m prev out) (hmn : m ≤ n)
    (hf : ∀ j, m ≤ j → j < n → s[j]? = some .zero ∧ f prev.level j = .neutral) : Settled f s n prev out := by
  induction n, hmn using Nat.le_induction with
  | base => exact h
  | succ n hmn ih =>
    obtain ⟨hzero, hn⟩ := hf n hmn n.lt_succ_self
    exact (ih fun j hj hlt => hf j hj (hlt.trans n.lt_succ_self)).skip hzero hn

end SettledSteps

/-! ### The slots of HDB3 (R71) -/

section Hdb3Slots

variable {even : EvenSign} {s : List Symbol} {i : Nat}

theorem hdb3Slot_of_one (h : s[i]? = some .one) (last : Level) : hdb3Slot even s last i = last.neg := if_pos h

theorem hdb3Slot_of_blockEnds (h : blockEnds 4 s i = true) (last : Level) : hdb3Slot even s last i = last := by
  have hzero := zero_of_blockEnds (m := 0) h (by decide)
  exact (if_neg (ne_one_of_zero hzero)).trans (if_pos h)

/-- A ZERO that neither ends a block nor starts an even-parity one is NEUTRAL. -/
theorem hdb3Slot_of_neutral (hzero : s[i]? = some .zero) (hi : blockEnds 4 s i = false)
    (hstart : blockEnds 4 s (i + 3) = true → onesSinceBlock s (i + 3) % 2 = 1) (last : Level) :
    hdb3Slot even s last i = .neutral := by
  have hodd : (blockEnds 4 s (i + 3) && decide (onesSinceBlock s (i + 3) % 2 = 0)) = false := by
    cases hb : blockEnds 4 s (i + 3) with
    | false => rfl
    | true => simp [hstart hb]
  unfold hdb3Slot
  rw [if_neg (ne_one_of_zero hzero), hi, hodd]
  rfl

/-- An even-parity block starts with a pulse of the derived sign. -/
theorem hdb3Slot_of_even_block (h : blockEnds 4 s (i + 3) = true) (heven : onesSinceBlock s (i + 3) % 2 = 0)
    (p : Polarity) : hdb3Slot even s p.level i = (hdb3EvenPolarity even p).level := by
  have hzero := zero_of_blockEnds h (by decide)
  have hi := blockEnds_unique h (by decide) (by decide)
  unfold hdb3Slot
  rw [if_neg (ne_one_of_zero hzero), hi, h, decide_eq_true heven]
  cases even
  · exact (neg_level p).symm
  · rfl

end Hdb3Slots

section OnesSinceBlock

variable {s : List Symbol} {n : Nat}

theorem onesSinceBlock_succ_of_block (h : blockEnds 4 s n = true) : onesSinceBlock s (n + 1) = 0 := if_pos h

theorem onesSinceBlock_succ_of_one (h : s[n]? = some .one) : onesSinceBlock s (n + 1) = onesSinceBlock s n + 1 := by
  rw [onesSinceBlock, blockEnds_of_ne (ne_zero_of_one h), if_pos h]
  rfl

theorem onesSinceBlock_succ_of_zero (h : s[n]? = some .zero) (hn : blockEnds 4 s n = false) :
    onesSinceBlock s (n + 1) = onesSinceBlock s n := by
  rw [onesSinceBlock, hn, if_neg (ne_one_of_zero h)]
  rfl

end OnesSinceBlock

/-! ### The scan of HDB3 (R71) -/

/-- The counters of the HDB3 scan at index `n`. -/
structure Hdb3Scan.Counts (s : List Symbol) (n : Nat) (z : Hdb3Scan) : Prop where
  index : z.i = n
  zeroCount : z.zeroCount = zerosBefore s n % 4
  flag : z.flag = decide (onesSinceBlock s n % 2 = 1)

/-- What a turn of the HDB3 scan does to `prev` and the train, by what its symbol is to the blocks. -/
inductive Hdb3Turn (even : EvenSign) (s : List Symbol) (n : Nat) (prev : Polarity) (out : List Level) :
    Polarity → List Level → Prop where
  | one (h : s[n]? = some .one) : Hdb3Turn even s n prev out prev.neg (out.set n prev.neg.level)
  | zero (h : s[n]? = some .zero) (hn : blockEnds 4 s n = false) : Hdb3Turn even s n prev out prev out
  | evenBlock (h : blockEnds 4 s n = true) (hparity : onesSinceBlock s n % 2 = 0) :
    Hdb3Turn even s n prev out (hdb3EvenPolarity even prev)
      ((out.set (n - 3) (hdb3EvenPolarity even prev).level).set n (hdb3EvenPolarity even prev).level)
  | oddBlock (h : blockEnds 4 s n = true) (hparity : onesSinceBlock s n % 2 = 1) :
    Hdb3Turn even s n prev out prev (out.set n prev.level)

/-- The one inversion of `hdb3Step`: its counters go on, and the rest is one of the four turns. -/
theorem Hdb3Scan.Counts.succ {even : EvenSign} {s : List Symbol} {n : Nat} {x : Symbol} {z : Hdb3Scan}
    (hx : s[n]? = some x) (h : z.Counts s n) :
    (hdb3Step even z x).Counts s (n + 1) ∧
      Hdb3Turn even s n z.prev z.out (hdb3Step even z x).prev (hdb3Step even z x).out := by
  obtain ⟨rfl, hzc, hflag⟩ := h
  cases x with
  | one =>
    have hcount : zerosBefore s (z.i + 1) = 0 := zerosEndingAt_of_ne (ne_zero_of_one hx)
    refine ⟨⟨rfl, by rw [hcount]; rfl, ?_⟩, .one hx⟩
    have hparity : onesSinceBlock s z.i % 2 ≠ 1 ↔ (onesSinceBlock s z.i + 1) % 2 = 1 := by omega
    rw [onesSinceBlock_succ_of_one hx, ← decide_eq_decide.2 hparity, decide_not, ← hflag]
    rfl
  | zero =>
    have hcount := zerosBefore_succ_mod (k := 4) (by decide) hx
    have hends := blockEnds_of_zero (k := 4) (by decide) hx
    rw [hdb3Step, hzc]
    split
    · rename_i hfull
      have hblock : blockEnds 4 s z.i = true := hends.trans (decide_eq_true hfull)
      rw [hblock] at hcount
      have hones := onesSinceBlock_succ_of_block hblock
      split
      · rename_i hf
        rw [hflag, decide_eq_false_iff_not] at hf
        exact ⟨⟨rfl, hcount.symm, by rw [hones]; rfl⟩, .evenBlock hblock (by omega)⟩
      · rename_i hf
        rw [hflag, decide_eq_false_iff_not, not_not] at hf
        exact ⟨⟨rfl, hcount.symm, by rw [hones]; rfl⟩, .oddBlock hblock hf⟩
    · rename_i hfull
      have hblock : blockEnds 4 s z.i = false := hends.trans (decide_eq_false hfull)
      rw [hblock] at hcount
      exact ⟨⟨rfl, hcount.symm, by rw [onesSinceBlock_succ_of_zero hx hblock]; exact hflag⟩, .zero hx hblock⟩

section Hdb3Settles

variable {even : EvenSign} {s : List Symbol} {n : Nat} {prev : Polarity} {out : List Level}

/-- ZEROs whose run ends before it completes a block stay NEUTRAL. -/
theorem hdb3Slot_of_broken_run {j : Nat} (hn : s[n]? ≠ some .zero) (hj : j < n)
    (hpending : n ≤ j + zerosBefore s n % 4) (last : Level) :
    s[j]? = some .zero ∧ hdb3Slot even s last j = .neutral := by
  obtain ⟨hzero, hends⟩ := pending_zero (by decide) hj hpending
  refine ⟨hzero, hdb3Slot_of_neutral hzero hends (fun hstart => ?_) last⟩
  have hm : j + 3 = n + (j + 3 - n) := by omega
  exact absurd (zero_of_blockEnds (hm ▸ hstart) (by omega)) hn

/-- In a block the slots before the last are NEUTRAL, but for the first one when the parity is even. -/
theorem hdb3Slot_of_block {j : Nat} (h : blockEnds 4 s n = true) (hj : j < n) (hn : n < j + 4)
    (hfirst : j + 3 = n → onesSinceBlock s n % 2 = 1) (last : Level) :
    s[j]? = some .zero ∧ hdb3Slot even s last j = .neutral := by
  obtain ⟨m, rfl⟩ := Nat.exists_eq_add_of_lt hj
  have hzero : s[j]? = some .zero := zero_of_blockEnds (m := m + 1) h (by omega)
  have hends : blockEnds 4 s j = false := blockEnds_unique (m := m + 1) h (by omega) m.succ_pos
  refine ⟨hzero, hdb3Slot_of_neutral hzero hends (fun hstart => ?_) last⟩
  by_cases hm : j + 3 = j + m + 1
  · rw [hm]
    exact hfirst hm
  · have hlater : j + 3 = j + m + 1 + (2 - m) := by omega
    rw [blockEnds_unique (hlater ▸ hstart) (by omega) (by omega)] at h
    cases h

/-- A run that is broken before index `n` settles the train up to `n`. -/
theorem Settled.of_broken_run (h : Settled (hdb3Slot even s) s (n - zerosBefore s n % 4) prev out)
    (hn : s[n]? ≠ some .zero) : Settled (hdb3Slot even s) s n prev out :=
  h.skip_to (n.sub_le _) fun _ hj hlt => hdb3Slot_of_broken_run hn hlt (by omega) _

/-- Each turn of the scan settles what the symbols read so far decide. -/
theorem Settled.turn {prev' : Polarity} {out' : List Level}
    (h : Settled (hdb3Slot even s) s (n - zerosBefore s n % 4) prev out)
    (ht : Hdb3Turn even s n prev out prev' out') :
    Settled (hdb3Slot even s) s (n + 1 - zerosBefore s (n + 1) % 4) prev' out' := by
  cases ht with
  | one hx =>
    have hne : s[n]? ≠ some .zero := ne_zero_of_one hx
    have hcount : zerosBefore s (n + 1) = 0 := zerosEndingAt_of_ne hne
    rw [hcount]
    exact (h.of_broken_run hne).set (List.getElem?_eq_some_iff.1 hx).1
      ((hdb3Slot_of_one hx _).trans (neg_level prev).symm)
  | zero hx hn =>
    rw [zerosBefore_succ_mod (by decide) hx, hn, if_neg Bool.false_ne_true, Nat.add_sub_add_right]
    exact h
  | evenBlock hn hparity =>
    obtain ⟨a, rfl⟩ : ∃ a, n = a + 3 := ⟨n - 3, by have := le_of_blockEnds hn; omega⟩
    have hlt := (List.getElem?_eq_some_iff.1 (zero_of_blockEnds (m := 0) hn (by decide))).1
    have hcount : zerosBefore s (a + 3) % 4 = 3 := by have := zerosBefore_mod_of_blockEnds (by decide) hn; omega
    rw [hcount, Nat.add_sub_cancel] at h
    have hstart := h.set (by omega) (hdb3Slot_of_even_block hn hparity prev)
    have hinner := hstart.skip_to (n := a + 3) (by omega) fun j hj hjn =>
      hdb3Slot_of_block hn hjn (by omega) (by omega) _
    exact (blockEnds_iff.1 hn).2.symm ▸ hinner.set hlt (hdb3Slot_of_blockEnds hn _)
  | oddBlock hn hparity =>
    have hlt := (List.getElem?_eq_some_iff.1 (zero_of_blockEnds (m := 0) hn (by decide))).1
    have hinner := h.skip_to (n.sub_le _) fun j hj hjn =>
      hdb3Slot_of_block hn hjn (by omega) (fun _ => hparity) _
    exact (blockEnds_iff.1 hn).2.symm ▸ hinner.set hlt (hdb3Slot_of_blockEnds hn _)

end Hdb3Settles

/-- The state of the HDB3 scan at index `n`. -/
structure Hdb3Scan.At (even : EvenSign) (s : List Symbol) (n : Nat) (z : Hdb3Scan) : Prop where
  counts : z.Counts s n
  settled : Settled (hdb3Slot even s) s (n - zerosBefore s n % 4) z.prev z.out

theorem Hdb3Scan.At.init (even : EvenSign) (s : List Symbol) :
    Hdb3Scan.At even s 0 { i := 0, zeroCount := 0, flag := false, prev := .low, out := encAmi s } where
  counts := ⟨rfl, rfl, rfl⟩
  settled := ⟨encAmi_length s, rfl, fun j hj => absurd hj j.not_lt_zero, fun _ _ => rfl⟩

theorem Hdb3Scan.At.succ {even : EvenSign} {s : List Symbol} {n : Nat} {x : Symbol} {z : Hdb3Scan}
    (hx : s[n]? = some x) (h : z.At even s n) : (hdb3Step even z x).At even s (n + 1) :=
  have hturn := h.counts.succ hx
  ⟨hturn.1, h.settled.turn hturn.2⟩

/-- The scan settles the whole train. -/
theorem scrHdb3_settled (even : EvenSign) (s : List Symbol) :
    ∃ prev, Settled (hdb3Slot even s) s s.length prev (scrHdb3 even s) := by
  have hend := foldl_induction_index (Hdb3Scan.At.init even s) fun _ _ _ hx hz => hz.succ hx
  exact ⟨_, hend.settled.of_broken_run (by simp)⟩

/-- The slots of an HDB3 train by position and by the last nonzero pulse before each (R71). -/
theorem scrHdb3_getElem? (even : EvenSign) {s : List Symbol} {i : Nat} (hi : i < s.length) :
    (scrHdb3 even s)[i]? = some (hdb3Slot even s (lastPulse (scrHdb3 even s) i) i) := by
  obtain ⟨_, hsettled⟩ := scrHdb3_settled even s
  exact hsettled.slot i hi

/-- Settles O27: the scan settles every slot as its position and the last nonzero pulse before it give it. -/
theorem hdb3Scrambles : Obligations.Hdb3Scrambles := by
  intro s xs h
  have hlen := scrHdb3_length s.cfg.hdb3EvenSign xs
  exact ⟨_, scrHdb3 s.cfg.hdb3EvenSign xs, scramble_of_ready _ h, hlen,
    fun i hi => rewriteTrain_read s (hlen.symm ▸ hi), fun i hi => scrHdb3_getElem? _ hi,
    fun a ha => rewriteTrain_read_above s (hlen.symm ▸ ha), rfl⟩

/-! ### The laws of the scrambled trains (R72) -/

/-- A train is fixed by what each slot has to be after the last nonzero pulse before it. -/
theorem getElem?_eq_of_lastPulse {f : Level → Nat → Level} {out out' : List Level} {n : Nat}
    (h : ∀ i, i < n → out[i]? = some (f (lastPulse out i) i))
    (h' : ∀ i, i < n → out'[i]? = some (f (lastPulse out' i) i)) (i : Nat) (hi : i < n) : out[i]? = out'[i]? := by
  induction i using Nat.strongRecOn with
  | ind i ih => rw [h i hi, h' i hi, lastPulse_congr fun j hj => ih j hj (hj.trans hi)]

/-- In an AMI train the next nonzero pulse is the negation of the last one. -/
theorem lastPulse_encAmi {s : List Symbol} {i : Nat} (hi : i ≤ s.length) :
    lastPulse (encAmi s) i = (Polarity.low.flips (onesBefore s i)).level := by
  induction i with
  | zero => rfl
  | succ i ih =>
    have hx := List.getElem?_eq_getElem (l := s) (i := i) (by omega)
    have hslot := encAmi_getElem?_amiSlot s i
    rw [hx] at hslot
    rw [onesBefore_succ hx]
    cases hsym : s[i] with
    | zero =>
      rw [hsym] at hx
      rw [lastPulse_succ_of_neutral ((encAmi_getElem?_eq_neutral_iff s i).2 hx), ih (by omega)]
      rfl
    | one =>
      rw [hsym] at hx
      rw [amiSlot, if_pos hx] at hslot
      rw [lastPulse_succ_of_level hslot, if_pos rfl, flips_succ, ← neg_flips]
      rfl

/-- Short runs have no block. -/
theorem blockEnds_of_lt {k : Nat} {s : List Symbol} (h : ∀ i, zerosEndingAt s i < k) (i : Nat) :
    blockEnds k s i = false :=
  Bool.eq_false_iff.2 fun hends => (le_zerosEndingAt_of_blockEnds hends).not_gt (h i)

/-- Without a block an AMI train is what HDB3 asks for. -/
theorem encAmi_getElem?_hdb3Slot (even : EvenSign) {s : List Symbol} (h : ∀ i, blockEnds 4 s i = false) {i : Nat}
    (hi : i < s.length) : (encAmi s)[i]? = some (hdb3Slot even s (lastPulse (encAmi s) i) i) := by
  have hx := List.getElem?_eq_getElem hi
  rw [encAmi_getElem?_amiSlot, hx, lastPulse_encAmi hi.le]
  cases hsym : s[i] with
  | zero =>
    rw [hsym] at hx
    rw [hdb3Slot_of_neutral hx (h i) (by simp [h]), Option.map_some, amiSlot_of_ne (ne_one_of_zero hx)]
  | one =>
    rw [hsym] at hx
    rw [hdb3Slot_of_one hx, Option.map_some, amiSlot, if_pos hx, ← neg_level, ← neg_flips]
    rfl

/-- Settles O29: without a block every slot that either scheme asks for is AMI's. -/
theorem shortRunsAreUntouched : Obligations.ShortRunsAreUntouched := by
  refine fun s => ⟨fun first h => List.ext_getElem? fun i => ?_, fun even h => List.ext_getElem? fun i => ?_⟩
  · rw [scrB8zs_getElem?, encAmi_getElem?_amiSlot, b8zsSlot, blockEnds_of_lt h, blockEnds_of_lt h]
    rfl
  · by_cases hi : i < s.length
    · exact getElem?_eq_of_lastPulse (fun _ => scrHdb3_getElem? even)
        (fun _ => encAmi_getElem?_hdb3Slot even (blockEnds_of_lt h)) i hi
    · rw [List.getElem?_eq_none (by simpa using hi), List.getElem?_eq_none (by simpa using hi)]

/-- A train that is nonzero at each ONE and at the end of each block of `k` has no `k` NEUTRALs in a row. -/
theorem not_neutral_run {k : Nat} {s : List Symbol} {out : List Level} (hk : 0 < k)
    (hlen : out.length = s.length) (hone : ∀ i : Nat, s[i]? = some .one → out[i]? ≠ some .neutral)
    (hblock : ∀ i : Nat, blockEnds k s i = true → out[i]? ≠ some .neutral) (i : Nat) :
    ¬∀ m, m < k → out[i + m]? = some .neutral := by
  intro hrun
  have hzero : ∀ m, m < k → s[i + m]? = some .zero := by
    intro m hm
    have hlt := (List.getElem?_eq_some_iff.1 (hrun m hm)).1
    have hx := List.getElem?_eq_getElem (hlen ▸ hlt)
    cases hsym : s[i + m] with
    | zero => rw [hx, hsym]
    | one => exact absurd (hrun m hm) (hone _ (hsym ▸ hx))
  obtain ⟨m, hm, hends⟩ := exists_blockEnds hk hzero
  exact hblock _ hends (hrun m hm)

theorem lt_length_of_blockEnds {k : Nat} {s : List Symbol} {i : Nat} (h : blockEnds k s i = true) :
    i < s.length :=
  (List.getElem?_eq_some_iff.1 (zerosEndingAt_pos.1 (blockEnds_iff.1 h).1)).1

/-- At a ONE an HDB3 train has the negation of the last pulse, at the end of a block the last pulse. -/
theorem scrHdb3_ne_neutral (even : EvenSign) {s : List Symbol} {i : Nat}
    (h : s[i]? = some .one ∨ blockEnds 4 s i = true) : (scrHdb3 even s)[i]? ≠ some .neutral := by
  obtain ⟨p, hp⟩ := exists_lastPulse_eq_level (scrHdb3 even s) i
  rcases h with hone | hblock
  · rw [scrHdb3_getElem? even (List.getElem?_eq_some_iff.1 hone).1, hdb3Slot_of_one hone, hp, ← neg_level]
    exact fun h => level_ne_neutral p.neg (Option.some.inj h)
  · rw [scrHdb3_getElem? even (lt_length_of_blockEnds hblock), hdb3Slot_of_blockEnds hblock, hp]
    exact fun h => level_ne_neutral p (Option.some.inj h)

/-- At a ONE a B8ZS train has AMI's pulse, at the end of a block the sign of the block. -/
theorem scrB8zs_ne_neutral (first : Polarity) {s : List Symbol} {i : Nat}
    (h : s[i]? = some .one ∨ blockEnds 8 s i = true) : (scrB8zs first s)[i]? ≠ some .neutral := by
  rw [scrB8zs_getElem?, b8zsSlot]
  rcases h with hone | hblock
  · have hi : blockEnds 8 s i = false := blockEnds_of_ne (ne_zero_of_one hone)
    have hi4 : blockEnds 8 s (i + 4) = false := Bool.eq_false_iff.2 fun hends => by
      have hzero := zero_of_blockEnds hends (by decide)
      rw [hone] at hzero
      cases hzero
    simp [hone, hi, hi4, amiSlot]
  · simp [hblock]

/-- Settles O30: both schemes leave a nonzero pulse at each ONE and at the end of each block. -/
theorem zeroRunsAreBounded : Obligations.ZeroRunsAreBounded := fun s first even =>
  ⟨scrB8zs_length first s, scrHdb3_length even s,
    not_neutral_run (by decide) (scrB8zs_length first s) (fun _ h => scrB8zs_ne_neutral first (.inl h))
      fun _ h => scrB8zs_ne_neutral first (.inr h),
    not_neutral_run (by decide) (scrHdb3_length even s) (fun _ h => scrHdb3_ne_neutral even (.inl h))
      fun _ h => scrHdb3_ne_neutral even (.inr h)⟩

/-! ### The violations of HDB3 under OPPOSITE (R72 item 5) -/

theorem flips_add_of_even (p : Polarity) (n : Nat) {m : Nat} (h : m % 2 = 0) : p.flips (n + m) = p.flips n := by
  simp [Polarity.flips, Nat.add_mod, h]

theorem flips_add_of_odd (p : Polarity) (n : Nat) {m : Nat} (h : m % 2 = 1) :
    p.flips (n + m) = p.neg.flips n := by
  obtain ⟨m, rfl⟩ : ∃ m', m = m' + 1 := ⟨m - 1, by omega⟩
  rw [← Nat.add_assoc, flips_succ, flips_add_of_even p n (by omega), neg_flips]

/-- Under OPPOSITE the scan at index `n` has flipped `prev` once per ONE since the last block and once per block;
each block has ended in HIGH flipped once per block before it. -/
structure Hdb3Alternates (s : List Symbol) (n : Nat) (prev : Polarity) (out : List Level) : Prop where
  prev : prev = Polarity.low.flips (blocksBefore 4 s n + onesSinceBlock s n)
  violation : ∀ e, e < n → blockEnds 4 s e = true →
    out[e]? = some (Polarity.high.flips (blocksBefore 4 s e)).level

section Violations

variable {s : List Symbol} {n : Nat} {prev prev' : Polarity} {out out' : List Level}

/-- A turn that completes a block goes on as it must when it writes the block's violation and keeps the earlier
ones. -/
theorem Hdb3Alternates.of_block (h : blockEnds 4 s n = true)
    (hprev : prev = Polarity.high.flips (blocksBefore 4 s n))
    (hold : ∀ e, e < n → blockEnds 4 s e = true →
      out[e]? = some (Polarity.high.flips (blocksBefore 4 s e)).level)
    (hlen : n < out.length) : Hdb3Alternates s (n + 1) prev (out.set n prev.level) where
  prev := by
    rw [hprev, blocksBefore_succ, onesSinceBlock_succ_of_block h, h, if_pos rfl, Nat.add_zero, flips_succ,
      ← neg_flips]
    rfl
  violation e he hends := by
    obtain hlt | rfl := Nat.lt_succ_iff_lt_or_eq.1 he
    · rw [List.getElem?_set_ne hlt.ne', hold e hlt hends]
    · rw [List.getElem?_set_self hlen, hprev]

/-- Where no block ends there is no new violation to account for. -/
theorem Hdb3Alternates.violation_of_not (h : Hdb3Alternates s n prev out) (hn : blockEnds 4 s n = false)
    (hout : ∀ e, e < n → out'[e]? = out[e]?) (e : Nat) (he : e < n + 1) (hends : blockEnds 4 s e = true) :
    out'[e]? = some (Polarity.high.flips (blocksBefore 4 s e)).level := by
  obtain hlt | rfl := Nat.lt_succ_iff_lt_or_eq.1 he
  · rw [hout e hlt, h.violation e hlt hends]
  · rw [hn] at hends
    cases hends

theorem Hdb3Alternates.turn (h : Hdb3Alternates s n prev out) (hlen : n < out.length)
    (ht : Hdb3Turn .opposite s n prev out prev' out') : Hdb3Alternates s (n + 1) prev' out' := by
  cases ht with
  | one hx =>
    have hn : blockEnds 4 s n = false := blockEnds_of_ne (ne_zero_of_one hx)
    refine ⟨?_, h.violation_of_not hn fun e he => List.getElem?_set_ne he.ne'⟩
    rw [h.prev, blocksBefore_succ, hn, onesSinceBlock_succ_of_one hx]
    exact (flips_succ _ _).symm
  | zero hx hn =>
    refine ⟨?_, h.violation_of_not hn fun _ _ => rfl⟩
    rw [h.prev, blocksBefore_succ, hn, onesSinceBlock_succ_of_zero hx hn]
    rfl
  | evenBlock hn hparity =>
    refine .of_block hn ?_ (fun e he hends => ?_) (by rwa [List.length_set])
    · rw [hdb3EvenPolarity, h.prev, flips_add_of_even _ _ hparity, ← neg_flips]
      rfl
    · have hne : n - 3 ≠ e := by
        intro heq
        have hle := le_of_blockEnds hn
        have hn3 : n = e + 3 := by omega
        rw [blockEnds_unique (hn3 ▸ hn) (by decide) (by decide)] at hends
        cases hends
      rw [List.getElem?_set_ne hne, h.violation e he hends]
  | oddBlock hn hparity =>
    refine .of_block hn ?_ h.violation hlen
    rw [h.prev, flips_add_of_odd _ _ hparity]
    rfl

end Violations

/-- Under OPPOSITE the violation of a block is HIGH flipped once per block before it. -/
theorem scrHdb3_violation {s : List Symbol} {e : Nat} (h : blockEnds 4 s e = true) :
    (scrHdb3 .opposite s)[e]? = some (Polarity.high.flips (blocksBefore 4 s e)).level := by
  have hinit : Hdb3Alternates s 0 .low (encAmi s) := ⟨rfl, fun e he => absurd he e.not_lt_zero⟩
  have hend := foldl_induction_index
    (P := fun n (z : Hdb3Scan) => z.At .opposite s n ∧ Hdb3Alternates s n z.prev z.out)
    ⟨Hdb3Scan.At.init .opposite s, hinit⟩ fun n x z hx ⟨hz, halt⟩ =>
      have hlt := (List.getElem?_eq_some_iff.1 hx).1
      ⟨hz.succ hx, halt.turn (hz.settled.length.symm ▸ hlt) (hz.counts.succ hx).2⟩
  exact hend.2.violation e (lt_length_of_blockEnds h) h

/-- Between successive blocks the number of blocks is constant. -/
theorem blocksBefore_of_none_between {k : Nat} {s : List Symbol} {a b : Nat} (hab : a ≤ b)
    (h : ∀ i, a ≤ i → i < b → blockEnds k s i = false) : blocksBefore k s b = blocksBefore k s a := by
  induction b, hab using Nat.le_induction with
  | base => rfl
  | succ b hab ih =>
    rw [blocksBefore_succ, h b hab b.lt_succ_self, ih fun i hi hlt => h i hi (hlt.trans b.lt_succ_self)]
    rfl

/-- Settles O31: each violation is HIGH flipped once per block before it, and of two successive blocks the second
has one block more before it. -/
theorem hdb3ViolationsAlternate : Obligations.Hdb3ViolationsAlternate := by
  intro s e f hef he hf hnone
  refine ⟨_, scrHdb3_violation he, ?_⟩
  rw [scrHdb3_violation hf, blocksBefore_of_none_between (Nat.succ_le_of_lt hef) fun k hk => hnone k hk,
    blocksBefore_succ, he, if_pos rfl, flips_succ]

end Sys2Proof.Machine
end

section
/-!
Arithmetic on finite binary64 values, as PCM_ENCODE and DM_ENCODE use it (spec/42_analog_modulate.md R75, R77):
comparisons and differences go by the values in units, rounding is monotone and keeps a representable value, and a
rounded quotient of a nonzero result is at least half the exact one.
-/

namespace Sys2Proof.Machine.F64

/-! ### Finite values in units -/

theorem isFinite_iff {a : F64} : a.isFinite = true ↔ ∃ s m, a = .fin s m := by
  cases a <;> simp [isFinite]

/-- A finite value that is not equal to zero has a nonzero magnitude. -/
theorem exists_fin_of_ne_zero {a : F64} (ha : a.isFinite = true) (h0 : feq a (.fin false 0) = false) :
    ∃ s m, a = .fin s m ∧ 0 < m := by
  obtain ⟨s, m, rfl⟩ := isFinite_iff.1 ha
  refine ⟨s, m, rfl, Nat.pos_of_ne_zero ?_⟩
  rintro rfl
  cases s <;> cases h0

@[simp] theorem units_neg (a : F64) : (neg a).units = -a.units := by
  cases a with
  | nan => rfl
  | inf s => rfl
  | fin s m => cases s <;> simp [neg, units]

@[simp] theorem isFinite_neg (a : F64) : (neg a).isFinite = a.isFinite := by cases a <;> rfl

section Finite

variable {a b : F64} (ha : a.isFinite = true) (hb : b.isFinite = true)
include ha hb

theorem flt_of_finite : flt a b = decide (a.units < b.units) := by
  obtain ⟨s, m, rfl⟩ := isFinite_iff.1 ha
  obtain ⟨t, n, rfl⟩ := isFinite_iff.1 hb
  rfl

theorem feq_of_finite : feq a b = decide (a.units = b.units) := by
  obtain ⟨s, m, rfl⟩ := isFinite_iff.1 ha
  obtain ⟨t, n, rfl⟩ := isFinite_iff.1 hb
  rfl

/-- A nonzero sum is rounded with its own sign. -/
theorem fadd_of_units_ne (h : a.units + b.units ≠ 0) :
    fadd a b = round (decide (a.units + b.units < 0)) (a.units + b.units).natAbs 1 := by
  obtain ⟨s, m, rfl⟩ := isFinite_iff.1 ha
  obtain ⟨t, n, rfl⟩ := isFinite_iff.1 hb
  exact if_neg h

/-- A nonzero difference depends on the values alone, not on the sign of a zero. -/
theorem fsub_of_units_ne (h : a.units ≠ b.units) :
    fsub a b = round (decide (a.units - b.units < 0)) (a.units - b.units).natAbs 1 := by
  have hne : a.units + (neg b).units ≠ 0 := by rw [units_neg]; omega
  rw [fsub, fadd_of_units_ne ha (by rwa [isFinite_neg]) hne, units_neg, ← sub_eq_add_neg]

/-- Equal values differ by a zero, of one sign or the other. -/
theorem fsub_of_units_eq (h : a.units = b.units) : ∃ z, fsub a b = .fin z 0 := by
  obtain ⟨s, m, rfl⟩ := isFinite_iff.1 ha
  obtain ⟨t, n, rfl⟩ := isFinite_iff.1 hb
  have hsum : units (.fin s m) + units (neg (.fin t n)) = 0 := by rw [units_neg, h, add_neg_cancel]
  exact ⟨_, if_pos hsum⟩

end Finite

/-! ### Rounding -/

/-- The magnitude that `round` rounds to, before it is compared with the overflow. -/
def roundMag (num den : Nat) : Nat := nearestEven num (den * 2 ^ ulpExp num den) * 2 ^ ulpExp num den

theorem round_eq (n : Bool) (num den : Nat) :
    round n num den = if overflow ≤ roundMag num den then .inf n else .fin n (roundMag num den) := rfl

theorem round_of_lt {n : Bool} {num den : Nat} (h : roundMag num den < overflow) :
    round n num den = .fin n (roundMag num den) := by
  rw [round_eq, if_neg h.not_ge]

/-- An exact quotient of at most 53 significant bits is not changed by rounding. -/
theorem roundMag_of_representable {v den : Nat} (hv : Representable v) (hd : 0 < den) :
    roundMag (v * den) den = v := by
  have hdvd : 2 ^ ulpExp (v * den) den ∣ v := by
    refine (hv.dvd_or_lt _).resolve_right ?_
    rintro ⟨he, hlt⟩
    exact ((Nat.mul_lt_mul_of_pos_right hlt hd).trans_le (pow_mul_den_le he)).ne rfl
  rw [roundMag]
  generalize ulpExp (v * den) den = e at hdvd ⊢
  obtain ⟨m, rfl⟩ := hdvd
  have hpos : 0 < den * 2 ^ e := by positivity
  rw [show 2 ^ e * m * den = m * (den * 2 ^ e) by ring, nearestEven, Nat.mul_div_cancel _ hpos, Nat.mul_mod_left]
  rw [if_neg (by omega), mul_comm]

theorem round_of_representable {n : Bool} {v den : Nat} (hv : Representable v) (hd : 0 < den) :
    round n (v * den) den = .fin n v := by
  have hmag := roundMag_of_representable hv hd
  rw [round_of_lt (hmag.trans_lt hv.1), hmag]

theorem representable_mul_pow {k e : Nat} (hk : k < 2 ^ 53) (he : e ≤ 2045) : Representable (k * 2 ^ e) := by
  refine ⟨?_, k, e, hk, rfl⟩
  calc k * 2 ^ e < 2 ^ 53 * 2 ^ e := Nat.mul_lt_mul_of_pos_right hk (by positivity)
    _ = 2 ^ (53 + e) := (pow_add 2 53 e).symm
    _ ≤ overflow := pow_le_pow_right₀ one_le_two (by omega)

theorem representable_mul_one {k : Nat} (hk : k < 2 ^ 53) : Representable (k * one) := by
  rw [one]
  exact representable_mul_pow hk (by omega)

theorem round_zero (n : Bool) {den : Nat} (hd : 0 < den) : round n 0 den = .fin n 0 := by
  have hzero : Representable 0 := by simpa using representable_mul_pow (k := 0) (e := 0) (by decide) (by decide)
  simpa using round_of_representable (n := n) hzero hd

theorem nearestEven_mono {num num' den : Nat} (h : num ≤ num') : nearestEven num den ≤ nearestEven num' den := by
  have hq : num / den ≤ num' / den := Nat.div_le_div_right h
  have hdiv := Nat.div_add_mod num den
  have hdiv' := Nat.div_add_mod num' den
  rcases hq.lt_or_eq with hlt | heq
  · simp only [nearestEven]
    split_ifs <;> omega
  · have hr : num % den ≤ num' % den := by rw [heq] at hdiv; omega
    simp only [nearestEven, heq]
    split_ifs <;> omega

theorem div_le_nearestEven (num den : Nat) : num / den ≤ nearestEven num den := by
  simp only [nearestEven]
  split <;> omega

theorem ulpExp_mono {num num' den : Nat} (h : num ≤ num') : ulpExp num den ≤ ulpExp num' den := by
  simp only [ulpExp, Nat.log2_eq_log_two]
  exact Nat.sub_le_sub_right (Nat.log_mono_right (Nat.div_le_div_right h)) 52

/-- Rounding is monotone (R75): in one binade `nearestEven` is, and a power of two lies between two binades. -/
theorem roundMag_mono {num num' den : Nat} (hd : 0 < den) (h : num ≤ num') :
    roundMag num den ≤ roundMag num' den := by
  rcases (ulpExp_mono (den := den) h).eq_or_lt with heq | hlt
  · rw [roundMag, roundMag, heq]
    exact Nat.mul_le_mul_right _ (nearestEven_mono h)
  · have hbelow : roundMag num den ≤ 2 ^ 53 * 2 ^ ulpExp num den :=
      Nat.mul_le_mul_right _ ((nearestEven_le _ _).trans (div_ulp_lt num den))
    have habove : 2 ^ 52 ≤ nearestEven num' (den * 2 ^ ulpExp num' den) := by
      refine le_trans ?_ (div_le_nearestEven num' _)
      rw [Nat.le_div_iff_mul_le (by positivity), mul_comm den, ← mul_assoc]
      exact pow_mul_den_le (by omega)
    calc roundMag num den ≤ 2 ^ 53 * 2 ^ ulpExp num den := hbelow
      _ = 2 ^ 52 * 2 ^ (ulpExp num den + 1) := by ring
      _ ≤ 2 ^ 52 * 2 ^ ulpExp num' den := Nat.mul_le_mul_left _ (Nat.pow_le_pow_right two_pos hlt)
      _ ≤ roundMag num' den := Nat.mul_le_mul_right _ habove

/-- A quotient that does not round to zero is at most twice what it rounds to. -/
theorem le_two_mul_roundMag {num den : Nat} (hd : 0 < den) (h : roundMag num den ≠ 0) :
    num ≤ 2 * (roundMag num den * den) := by
  have herr := (nearestEven_error (num := num) (den := den * 2 ^ ulpExp num den) (by positivity)).1
  have hscale : ((nearestEven num (den * 2 ^ ulpExp num den) : Nat) : Int) * (den * 2 ^ ulpExp num den : Nat) =
      (roundMag num den * den : Nat) := by rw [roundMag]; push_cast; ring
  rw [hscale] at herr
  by_cases he : ulpExp num den = 0
  · have hmul : den ≤ roundMag num den * den := Nat.le_mul_of_pos_left den (Nat.pos_of_ne_zero h)
    rw [he, pow_zero, mul_one] at herr
    omega
  · have hlow := pow_mul_den_le he
    rw [mul_assoc, mul_comm _ den] at hlow
    omega

/-! ### Quotients and floors -/

theorem fdiv_fin {b : Nat} (hb : 0 < b) (s t : Bool) (a : Nat) :
    fdiv (.fin s a) (.fin t b) = round (s != t) (a * one) b := if_neg hb.ne'

theorem fdiv_zero_fin {b : Nat} (hb : 0 < b) (s t : Bool) : fdiv (.fin s 0) (.fin t b) = .fin (s != t) 0 := by
  rw [fdiv_fin hb, Nat.zero_mul, round_zero _ hb]

theorem units_one_pos : 0 < one := by
  rw [one]
  positivity

theorem floor_zero (s : Bool) : floor (.fin s 0) = 0 := by cases s <;> exact Int.zero_ediv _

theorem floor_fin_mul_one (n : Nat) : floor (.fin false (n * one)) = n := by
  have hone : (one : Int) ≠ 0 := by exact_mod_cast units_one_pos.ne'
  rw [floor, units, if_neg (by decide), Nat.cast_mul]
  exact Int.mul_ediv_cancel _ hone

theorem floor_fin_nonneg (m : Nat) : 0 ≤ floor (.fin false m) :=
  Int.ediv_nonneg (Int.natCast_nonneg m) (Int.natCast_nonneg one)

end Sys2Proof.Machine.F64
end

section
/-!
PCM_ENCODE (spec/42_analog_modulate.md R74 to R76; O34 to O38). Its level indexes depend on the least and the greatest
sample by their values alone, so any extremes of the samples, whichever zero they are, give the symbols that the
model's fold gives. The quotients are bounded by the greatest one, since rounding is monotone.
-/

namespace Sys2Proof.Machine

/-! ### The symbols of a level index (R76 items 2 and 3) -/

theorem pcmIndex_lt (mn stp : F64) (b : Nat) (x : F64) : pcmIndex mn stp b x < 2 ^ b :=
  (min_le_right _ _).trans_lt (Nat.sub_one_lt (Nat.two_pow_pos b).ne')

/-- The symbol of one bit of an index (R36). -/
def bitSymbol (b : Bool) : Symbol := if b then .one else .zero

@[simp] theorem symbolBit_bitSymbol (b : Bool) : symbolBit (bitSymbol b) = BitVec.ofBool b := by cases b <;> rfl

theorem indexSymbols_getElem? {b u : Nat} (q : Nat) (hu : u < b) :
    (indexSymbols b q)[u]? = some (bitSymbol (q.testBit (b - 1 - u))) := by
  rw [indexSymbols, List.getElem?_map, List.getElem?_range hu]
  rfl

/-- The last symbol of an index is its lowest bit, and those before it are the symbols of its half. -/
theorem indexSymbols_succ (b q : Nat) :
    indexSymbols (b + 1) q = indexSymbols b (q / 2) ++ [bitSymbol (q.testBit 0)] := by
  rw [indexSymbols, List.range_succ, List.map_append, indexSymbols]
  congr 1
  · refine List.map_congr_left fun t ht => ?_
    have hlt := List.mem_range.1 ht
    rw [Nat.testBit_div_two, show b - 1 - t + 1 = b + 1 - 1 - t by omega]
  · simp [bitSymbol]

/-- Symbols read as an unsigned binary number, the first one most significant (R76 item 3). -/
def symbolsValue (ys : List Symbol) : Nat := ys.foldl (fun a y => 2 * a + (if y = .one then 1 else 0)) 0

theorem symbolsValue_append_bitSymbol (ys : List Symbol) (q : Nat) :
    symbolsValue (ys ++ [bitSymbol (q.testBit 0)]) = 2 * symbolsValue ys + q % 2 := by
  rw [symbolsValue, List.foldl_append, ← symbolsValue]
  rcases Nat.mod_two_eq_zero_or_one q with h | h <;> simp [bitSymbol, Nat.testBit_zero, h]

/-- The symbols of an index read back as the index. -/
theorem symbolsValue_indexSymbols {b q : Nat} (h : q < 2 ^ b) : symbolsValue (indexSymbols b q) = q := by
  induction b generalizing q with
  | zero =>
    obtain rfl : q = 0 := by simpa using h
    rfl
  | succ b ih =>
    rw [indexSymbols_succ, symbolsValue_append_bitSymbol, ih (by omega)]
    omega

/-- Settles O36: the clamp bounds the index, and its last symbol is its lowest bit. -/
theorem pcmIndexReadsBack : Obligations.PcmIndexReadsBack := fun b _ mn stp x =>
  ⟨pcmIndex_lt mn stp b x, symbolsValue_indexSymbols⟩

/-! ### Level indexes by value -/

/-- A sample equal to the least one has quotient zero. -/
theorem quotient_zero_of_units_eq {mn stp x : F64} (hx : x.isFinite = true) (hmn : mn.isFinite = true)
    (h : x.units = mn.units) (hs : stp.isFinite = true) (h0 : F64.feq stp (.fin false 0) = false) :
    ∃ z, F64.fdiv (F64.fsub x mn) stp = .fin z 0 := by
  obtain ⟨z, hz⟩ := F64.fsub_of_units_eq hx hmn h
  obtain ⟨t, m, rfl, hm⟩ := F64.exists_fin_of_ne_zero hs h0
  exact ⟨_, hz ▸ F64.fdiv_zero_fin hm z t⟩

theorem pcmIndex_of_quotient_zero {mn stp x : F64} {z : Bool} (h : F64.fdiv (F64.fsub x mn) stp = .fin z 0)
    (b : Nat) : pcmIndex mn stp b x = 0 := by
  rw [pcmIndex, h, F64.floor_zero, Int.toNat_zero, Nat.zero_min]

/-- A level index does not depend on which zero the least sample is (93_implementation_defined.md row 25). -/
theorem pcmIndex_congr {mn mn' stp x : F64} (hx : x.isFinite = true) (hmn : mn.isFinite = true)
    (hmn' : mn'.isFinite = true) (h : mn.units = mn'.units) (hs : stp.isFinite = true)
    (h0 : F64.feq stp (.fin false 0) = false) (b : Nat) : pcmIndex mn stp b x = pcmIndex mn' stp b x := by
  by_cases heq : x.units = mn.units
  · obtain ⟨z, hz⟩ := quotient_zero_of_units_eq hx hmn heq hs h0
    obtain ⟨z', hz'⟩ := quotient_zero_of_units_eq hx hmn' (heq.trans h) hs h0
    rw [pcmIndex_of_quotient_zero hz, pcmIndex_of_quotient_zero hz']
  · rw [pcmIndex, F64.fsub_of_units_ne hx hmn heq, pcmIndex, F64.fsub_of_units_ne hx hmn' (h ▸ heq), h]

/-! ### The extremes of the samples (R74) -/

/-- `mn` and `mx` are a least and a greatest one of finite samples, by value. -/
structure Extremes (xs : List F64) (mn mx : F64) : Prop where
  finite : ∀ x ∈ xs, x.isFinite = true
  min_mem : mn ∈ xs
  min_le : ∀ x ∈ xs, mn.units ≤ x.units
  max_mem : mx ∈ xs
  le_max : ∀ x ∈ xs, x.units ≤ mx.units

/-- A fold that keeps the better of two values ends in one of them that none is better than. -/
theorem foldl_keeps_best {better : F64 → F64 → Bool} {cost : F64 → Int}
    (hb : ∀ a b, a.isFinite = true → b.isFinite = true → better a b = decide (cost a < cost b)) (x : F64)
    (xs : List F64) (hfin : ∀ y ∈ x :: xs, y.isFinite = true) :
    xs.foldl (fun m y => if better y m then y else m) x ∈ x :: xs ∧
      ∀ y ∈ x :: xs, cost (xs.foldl (fun m y => if better y m then y else m) x) ≤ cost y := by
  induction xs generalizing x with
  | nil => simp
  | cons y ys ih =>
    obtain ⟨hx, hy, hys⟩ : x.isFinite = true ∧ y.isFinite = true ∧ ∀ z ∈ ys, z.isFinite = true := by
      simpa using hfin
    rw [List.foldl_cons, hb y x hy hx]
    by_cases hlt : cost y < cost x
    · obtain ⟨hmem, hle⟩ := ih y (by simpa using ⟨hy, hys⟩)
      rw [decide_eq_true hlt, if_pos rfl]
      have hhead := hle y List.mem_cons_self
      exact ⟨List.mem_cons_of_mem _ hmem, List.forall_mem_cons.2 ⟨by omega, hle⟩⟩
    · obtain ⟨hmem, hle⟩ := ih x (by simpa using ⟨hx, hys⟩)
      rw [decide_eq_false hlt, if_neg Bool.false_ne_true]
      obtain ⟨hhead, htail⟩ := List.forall_mem_cons.1 hle
      refine ⟨?_, List.forall_mem_cons.2 ⟨hhead, List.forall_mem_cons.2 ⟨by omega, htail⟩⟩⟩
      exact (List.mem_cons.1 hmem).elim (fun h => List.mem_cons.2 (.inl h))
        fun h => List.mem_cons_of_mem _ (List.mem_cons_of_mem _ h)

/-- The model's folds find extremes. -/
theorem extremes_least_greatest {x : F64} {xs : List F64} (hfin : ∀ y ∈ x :: xs, y.isFinite = true) :
    Extremes (x :: xs) (least x xs) (greatest x xs) := by
  obtain ⟨hminmem, hmin⟩ := foldl_keeps_best (better := F64.flt) (cost := F64.units)
    (fun a b ha hb => F64.flt_of_finite ha hb) x xs hfin
  obtain ⟨hmaxmem, hmax⟩ := foldl_keeps_best (better := F64.fgt) (cost := fun a => -a.units)
    (fun a b ha hb => by rw [F64.fgt, F64.flt_of_finite hb ha]; simp only [neg_lt_neg_iff]) x xs hfin
  exact ⟨hfin, hminmem, hmin, hmaxmem, fun y hy => neg_le_neg_iff.1 (hmax y hy)⟩

theorem exists_extremes {xs : List F64} (hne : xs ≠ []) (hfin : ∀ x ∈ xs, x.isFinite = true) :
    ∃ mn mx, Extremes xs mn mx := by
  obtain ⟨x, ys, rfl⟩ := List.exists_cons_of_ne_nil hne
  exact ⟨_, _, extremes_least_greatest hfin⟩

/-- Samples between two of them are extremes, in the comparisons of R12. -/
theorem extremes_of_flt {ws : List (BitVec 64)} {mn mx : F64} (hfin : ∀ w ∈ ws, (F64.ofBits w).isFinite = true)
    (hmn : mn ∈ ws.map F64.ofBits) (hmin : ∀ w ∈ ws, F64.flt (F64.ofBits w) mn = false)
    (hmx : mx ∈ ws.map F64.ofBits) (hmax : ∀ w ∈ ws, F64.flt mx (F64.ofBits w) = false) :
    Extremes (ws.map F64.ofBits) mn mx := by
  have hfin' : ∀ x ∈ ws.map F64.ofBits, x.isFinite = true := List.forall_mem_map.2 hfin
  refine ⟨hfin', hmn, List.forall_mem_map.2 fun w hw => ?_, hmx, List.forall_mem_map.2 fun w hw => ?_⟩
  · have h := hmin w hw
    rw [F64.flt_of_finite (hfin w hw) (hfin' mn hmn)] at h
    exact not_lt.1 (of_decide_eq_false h)
  · have h := hmax w hw
    rw [F64.flt_of_finite (hfin' mx hmx) (hfin w hw)] at h
    exact not_lt.1 (of_decide_eq_false h)

section Extremes

variable {xs : List F64} {mn mx mn' mx' : F64} (h : Extremes xs mn mx)
include h

theorem Extremes.min_finite : mn.isFinite = true := h.finite mn h.min_mem

theorem Extremes.max_finite : mx.isFinite = true := h.finite mx h.max_mem

/-- Extremes are determined by value. -/
theorem Extremes.units_eq (h' : Extremes xs mn' mx') : mn.units = mn'.units ∧ mx.units = mx'.units :=
  ⟨le_antisymm (h.min_le _ h'.min_mem) (h'.min_le _ h.min_mem),
    le_antisymm (h'.le_max _ h.max_mem) (h.le_max _ h'.max_mem)⟩

theorem Extremes.pcmStep_eq (h' : Extremes xs mn' mx') (hne : mx.units ≠ mn.units) (b : Nat) :
    pcmStep mn mx b = pcmStep mn' mx' b := by
  obtain ⟨hmin, hmax⟩ := h.units_eq h'
  have hne' : mx'.units ≠ mn'.units := by rwa [← hmin, ← hmax]
  rw [pcmStep, F64.fsub_of_units_ne h.max_finite h.min_finite hne, pcmStep,
    F64.fsub_of_units_ne h'.max_finite h'.min_finite hne', hmin, hmax]

end Extremes

/-! ### The symbols of the samples (R74) -/

theorem pcmSymbols_of_nonfinite {xs : List F64} (h : ∃ x ∈ xs, x.isFinite = false) (b : Nat) :
    pcmSymbols b xs = .error (.invalid .nonfiniteSample) := by
  obtain ⟨x, hx, hinf⟩ := h
  cases xs with
  | nil => cases hx
  | cons y ys => exact if_pos (List.any_eq_true.2 ⟨x, hx, by rw [hinf]; rfl⟩)

/-- What PCM_ENCODE makes of finite samples, given their extremes (R74). -/
def symbolsBetween (b : Nat) (mn mx : F64) (xs : List F64) : Except Stop (List Symbol) :=
  if F64.feq mx mn then .error (.invalid .degenerateRange)
  else if !(pcmStep mn mx b).isFinite || F64.feq (pcmStep mn mx b) (.fin false 0) then
    .error (.invalid .rangeNotRepresentable)
  else .ok (xs.flatMap fun y => indexSymbols b (pcmIndex mn (pcmStep mn mx b) b y))

theorem symbolsBetween_of_bad_step {b : Nat} {mn mx : F64} (hne : F64.feq mx mn = false)
    (hbad : (pcmStep mn mx b).isFinite = false ∨ F64.feq (pcmStep mn mx b) (.fin false 0) = true) (xs : List F64) :
    symbolsBetween b mn mx xs = .error (.invalid .rangeNotRepresentable) := by
  rw [symbolsBetween, if_neg (Bool.eq_false_iff.1 hne)]
  exact if_pos (by simpa using hbad)

theorem symbolsBetween_of_good_step {b : Nat} {mn mx : F64} (hne : F64.feq mx mn = false)
    (hs : (pcmStep mn mx b).isFinite = true) (h0 : F64.feq (pcmStep mn mx b) (.fin false 0) = false)
    (xs : List F64) :
    symbolsBetween b mn mx xs = .ok (xs.flatMap fun y => indexSymbols b (pcmIndex mn (pcmStep mn mx b) b y)) := by
  rw [symbolsBetween, if_neg (Bool.eq_false_iff.1 hne)]
  exact if_neg (by simp [hs, h0])

theorem pcmSymbols_of_finite {x : F64} {xs : List F64} (hfin : ∀ y ∈ x :: xs, y.isFinite = true) (b : Nat) :
    pcmSymbols b (x :: xs) = symbolsBetween b (least x xs) (greatest x xs) (x :: xs) :=
  if_neg (by simpa using hfin)

section Between

variable {xs : List F64} {mn mx mn' mx' : F64} (h : Extremes xs mn mx)
include h

/-- Extremes of equal values give the same symbols. -/
theorem Extremes.symbolsBetween_eq (h' : Extremes xs mn' mx') (b : Nat) :
    symbolsBetween b mn mx xs = symbolsBetween b mn' mx' xs := by
  obtain ⟨hmin, hmax⟩ := h.units_eq h'
  rw [symbolsBetween, symbolsBetween, F64.feq_of_finite h.max_finite h.min_finite,
    F64.feq_of_finite h'.max_finite h'.min_finite, ← hmin, ← hmax]
  refine ite_congr rfl (fun _ => rfl) fun hne => ?_
  rw [h.pcmStep_eq h' (by simpa using hne)]
  refine ite_congr rfl (fun _ => rfl) fun hgood => ?_
  obtain ⟨hs, h0⟩ : (pcmStep mn' mx' b).isFinite = true ∧ F64.feq (pcmStep mn' mx' b) (.fin false 0) = false := by
    simpa using hgood
  rw [List.flatMap_congr fun y hy => congrArg (indexSymbols b)
    (pcmIndex_congr (h.finite y hy) h.min_finite h'.min_finite hmin hs h0 b)]

/-- Any extremes of the samples decide the checks and give the symbols. -/
theorem Extremes.pcmSymbols_eq (b : Nat) : pcmSymbols b xs = symbolsBetween b mn mx xs := by
  cases xs with
  | nil => cases h.min_mem
  | cons x xs =>
    rw [pcmSymbols_of_finite h.finite, (extremes_least_greatest h.finite).symbolsBetween_eq h]

end Between

/-! ### The command (R74, R81) -/

theorem exec_pcm_of_input_error {s : State} {e : Stop} (h : pcmInput s = .error e) :
    exec .pcm s = endCommand s (.error e) := by
  rw [exec_eq_endCommand, commandResult, pcmResult, h]

theorem exec_pcm_of_input {s : State} {ws : List (BitVec 64)} (h : pcmInput s = .ok ws) :
    exec .pcm s = endCommand s ((pcmSymbols s.bps.toNat (ws.map F64.ofBits)).map s.putSymbols) := by
  rw [exec_eq_endCommand, commandResult, pcmResult, h]

section Checks

variable {s : State}

theorem samples_eq_none (h : ∃ j, j < s.smpLen.toNat ∧ s.smp.read j = none) :
    s.smp.readFrom 0 s.smpLen.toNat = none :=
  Memory.readFrom_eq_none_iff.2 (by simpa using h)

theorem pcmInput_of_gt (h : s.cfg.sMax < s.smpLen.toNat) : pcmInput s = .error (.invalid .capacity) := if_pos h

theorem pcmInput_of_eq_zero (h : s.smpLen.toNat = 0) : pcmInput s = .error (.invalid .emptyInput) := by
  simp [pcmInput, h]

variable (hpos : 0 < s.smpLen.toNat) (hcap : s.smpLen.toNat ≤ s.cfg.sMax)
include hpos hcap

theorem pcmInput_of_bad_bps (h : s.bps.toNat = 0 ∨ s.cfg.maxBps < s.bps.toNat) :
    pcmInput s = .error (.invalid .badBps) := by
  rw [pcmInput, if_neg hcap.not_gt, if_neg hpos.ne']
  exact if_pos h

variable (hb : 0 < s.bps.toNat) (hmax : s.bps.toNat ≤ s.cfg.maxBps)
include hb hmax

theorem pcmInput_of_product_gt (h : s.cfg.nMax < s.smpLen.toNat * s.bps.toNat) :
    pcmInput s = .error (.invalid .capacity) := by
  rw [pcmInput, if_neg hcap.not_gt, if_neg hpos.ne', if_neg (by omega)]
  exact if_pos h

variable (hout : s.smpLen.toNat * s.bps.toNat ≤ s.cfg.nMax)
include hout

theorem pcmInput_of_undef (h : ∃ j, j < s.smpLen.toNat ∧ s.smp.read j = none) :
    pcmInput s = .error (.fault .undefRead) := by
  rw [pcmInput, if_neg hcap.not_gt, if_neg hpos.ne', if_neg (by omega), if_neg hout.not_gt, samples_eq_none h]

theorem pcmInput_of_holds {ws : List (BitVec 64)} (h : s.HoldsSamples ws) : pcmInput s = .ok ws :=
  pcmInput_eq_ok_iff.2 ⟨hcap, hpos.ne', hb.ne', hmax, hout, State.holdsSamples_iff.1 h⟩

end Checks

theorem exec_pcm_of_symbols_error {s : State} {ws : List (BitVec 64)} {e : Stop} (h : pcmInput s = .ok ws)
    (hy : pcmSymbols s.bps.toNat (ws.map F64.ofBits) = .error e) : exec .pcm s = endCommand s (.error e) := by
  rw [exec_pcm_of_input h, hy]
  rfl

/-- Settles O35: the input check answers the first of the six reasons it has, and any extremes of finite samples
decide between the last two. -/
theorem pcmStops : Obligations.PcmStops := by
  refine fun s => ⟨fun h => exec_pcm_of_input_error (pcmInput_of_gt h),
    fun h => exec_pcm_of_input_error (pcmInput_of_eq_zero h),
    fun hpos hcap => ⟨fun h => exec_pcm_of_input_error (pcmInput_of_bad_bps hpos hcap h), fun hb hmax =>
      ⟨fun h => exec_pcm_of_input_error (pcmInput_of_product_gt hpos hcap hb hmax h), fun hout =>
        ⟨fun h => exec_pcm_of_input_error (pcmInput_of_undef hpos hcap hb hmax hout h), fun ws hws => ?_⟩⟩⟩⟩
  have hinput := pcmInput_of_holds hpos hcap hb hmax hout hws
  refine ⟨fun hinf => ?_, fun hfin => ⟨fun hequal => ?_, fun mn mx stp hmn hmin hmx hmaxi hne hstp hbad => ?_⟩⟩
  · exact exec_pcm_of_symbols_error (e := .invalid .nonfiniteSample) hinput
      (pcmSymbols_of_nonfinite (by simpa using hinf) _)
  · have hnil : ws.map F64.ofBits ≠ [] := by
      rw [← List.length_pos_iff, List.length_map, ← hws.1]
      exact hpos
    obtain ⟨mn, mx, hext⟩ := exists_extremes hnil (List.forall_mem_map.2 hfin)
    obtain ⟨v, hv, rfl⟩ := List.mem_map.1 hext.min_mem
    obtain ⟨w, hw, rfl⟩ := List.mem_map.1 hext.max_mem
    exact exec_pcm_of_symbols_error (e := .invalid .degenerateRange) hinput
      ((hext.pcmSymbols_eq _).trans (if_pos (hequal w hw v hv)))
  · subst hstp
    have hext := extremes_of_flt hfin hmn hmin hmx hmaxi
    exact exec_pcm_of_symbols_error (e := .invalid .rangeNotRepresentable) hinput
      ((hext.pcmSymbols_eq _).trans (symbolsBetween_of_bad_step hne hbad _))

/-! ### What the command writes (R74, R83) -/

/-- Below their number the symbols put in SYM read back. -/
theorem putSymbols_read (s : State) {ys : List Symbol} {a : Nat} {y : Symbol} (h : ys[a]? = some y) :
    (s.putSymbols ys).sym.read a = some (symbolBit y) := by
  have ha := (List.getElem?_eq_some_iff.1 h).1
  rw [State.putSymbols_sym, Memory.read_writeFrom_zero, List.length_map, if_pos ha, List.getElem?_map, h,
    Option.map_some]

/-- From their number on the symbols put in SYM leave it alone. -/
theorem putSymbols_read_above (s : State) {ys : List Symbol} {a : Nat} (ha : ys.length ≤ a) :
    (s.putSymbols ys).sym.read a = s.sym.read a :=
  Memory.read_writeFrom_above (by rwa [Nat.zero_add, List.length_map])

/-- In a row of groups of `b` elements, element `u` of group `j` stands at place `j * b + u`. -/
theorem flatMap_getElem?_of_length {α β : Type} {f : α → List β} {b : Nat} (hf : ∀ a, (f a).length = b)
    {xs : List α} {j u : Nat} {x : α} (hx : xs[j]? = some x) (hu : u < b) :
    (xs.flatMap f)[j * b + u]? = (f x)[u]? := by
  induction xs generalizing j with
  | nil => cases hx
  | cons y ys ih =>
    rw [List.flatMap_cons]
    cases j with
    | zero =>
      obtain rfl : y = x := by simpa using hx
      rw [Nat.zero_mul, Nat.zero_add, List.getElem?_append_left (by rwa [hf])]
    | succ j =>
      rw [List.getElem?_append_right (by rw [hf, Nat.succ_mul]; omega), hf, ← ih (by simpa using hx)]
      congr 1
      rw [Nat.succ_mul]
      omega

/-- Settles O34: any extremes of the samples give the symbols, and group `j` of them is that of sample `j`. -/
theorem pcmEncodes : Obligations.PcmEncodes := by
  intro s ws mn mx stp hws hcap hb hmax hout hfin hmn hmin hmx hmaxi hne hstp hs h0
  have hlen := hws.1
  have hpos : 0 < ws.length := by simpa using List.length_pos_of_mem hmn
  have hinput := pcmInput_of_holds (hlen ▸ hpos) (hlen ▸ hcap) hb hmax (hlen ▸ hout) hws
  subst hstp
  have hsyms := ((extremes_of_flt hfin hmn hmin hmx hmaxi).pcmSymbols_eq s.bps.toNat).trans
    (symbolsBetween_of_good_step hne hs h0 _)
  have hnum := pcmSymbols_length hsyms
  rw [List.length_map] at hnum
  refine ⟨_, by rw [exec_pcm_of_input hinput, hsyms]; rfl, fun hlt => ?_, fun j w hj => ?_, fun a ha => ?_, rfl⟩
  · exact (lengthWord_toNat (hnum ▸ hlt)).trans hnum
  · intro q u hu
    have hx : (ws.map F64.ofBits)[j]? = some (F64.ofBits w) := by rw [List.getElem?_map, hj, Option.map_some]
    have hy := (flatMap_getElem?_of_length (fun y => indexSymbols_length _ _) hx hu).trans
      (indexSymbols_getElem? (pcmIndex mn (pcmStep mn mx s.bps.toNat) s.bps.toNat (F64.ofBits w)) hu)
    exact (putSymbols_read s hy).trans (congrArg some (symbolBit_bitSymbol _))
  · exact putSymbols_read_above s (hnum ▸ ha)

end Sys2Proof.Machine
end

section
/-!
The quotients of PCM_ENCODE (spec/42_analog_modulate.md R75, R76 item 4; O37, O38). The greatest difference `R` of the
samples, once rounded, is at most `2 * S * 2^b` for a step of magnitude `S`, so every quotient is at most `2^(b + 1)`.
-/

namespace Sys2Proof.Machine

/-- The difference of the extremes and the step, where the step is finite and nonzero. -/
theorem pcmStep_eq_fin {mn mx : F64} {b : Nat} (hmn : mn.isFinite = true) (hmx : mx.isFinite = true)
    (hlt : mn.units < mx.units) (hs : (pcmStep mn mx b).isFinite = true)
    (h0 : F64.feq (pcmStep mn mx b) (.fin false 0) = false) :
    ∃ S, pcmStep mn mx b = .fin false S ∧ 0 < S ∧ F64.roundMag (mx.units - mn.units).natAbs 1 < F64.overflow ∧
      F64.roundMag (mx.units - mn.units).natAbs 1 ≤ 2 * S * 2 ^ b := by
  have hden : 0 < 2 ^ b * F64.one := Nat.mul_pos (Nat.two_pow_pos b) F64.units_one_pos
  rw [pcmStep, F64.fsub_of_units_ne hmx hmn hlt.ne', decide_eq_false (by omega), F64.round_eq] at hs h0 ⊢
  split_ifs at hs h0 ⊢ with hover
  · cases hs
  · rw [F64.ofNat, F64.fdiv_fin hden, F64.round_eq] at hs h0 ⊢
    split_ifs at hs h0 ⊢ with hover'
    · cases hs
    · obtain ⟨t, S, hS, hpos⟩ := F64.exists_fin_of_ne_zero hs h0
      cases hS
      refine ⟨_, rfl, hpos, by omega, ?_⟩
      have hle := F64.le_two_mul_roundMag hden hpos.ne'
      refine Nat.le_of_mul_le_mul_right (hle.trans_eq ?_) F64.units_one_pos
      ring

/-- A rounded quotient of at most `2^33` is finite (R75). -/
theorem fdiv_of_le {q S : Nat} (hS : 0 < S) (h : q ≤ 2 ^ 33 * S) :
    ∃ m, F64.fdiv (.fin false q) (.fin false S) = .fin false m := by
  have hrep : F64.Representable (2 ^ 33 * F64.one) := F64.representable_mul_one (by norm_num)
  have hmono : q * F64.one ≤ 2 ^ 33 * F64.one * S :=
    (Nat.mul_le_mul_right _ h).trans_eq (by ring)
  have hle := F64.roundMag_mono hS hmono
  rw [F64.roundMag_of_representable hrep hS] at hle
  exact ⟨_, by rw [F64.fdiv_fin hS]; exact F64.round_of_lt (hle.trans_lt hrep.1)⟩

/-- Settles O37: the difference of a sample is at most that of the greatest one, so its quotient is at most `2^33`. -/
theorem pcmQuotientIsFinite : Obligations.PcmQuotientIsFinite := by
  intro b mn mx x stp _ hb hmn hmx hx hlow hhigh hne hstp hs h0
  rw [F64.flt_of_finite hx hmn] at hlow
  rw [F64.flt_of_finite hmx hx] at hhigh
  rw [F64.feq_of_finite hmx hmn] at hne
  have hmin := not_lt.1 (of_decide_eq_false hlow)
  have hmax := not_lt.1 (of_decide_eq_false hhigh)
  have hspread := of_decide_eq_false hne
  rcases hmin.eq_or_lt with heq | hlt
  · obtain ⟨z, hz⟩ := quotient_zero_of_units_eq hx hmn heq.symm hs h0
    rw [hz]
    exact ⟨rfl, (F64.floor_zero z).ge⟩
  · subst hstp
    obtain ⟨S, hS, hpos, hover, hle⟩ := pcmStep_eq_fin hmn hmx (by omega) hs h0
    have hmono : F64.roundMag (x.units - mn.units).natAbs 1 ≤ F64.roundMag (mx.units - mn.units).natAbs 1 :=
      F64.roundMag_mono one_pos (by omega)
    have hpow : 2 ^ b ≤ 2 ^ 32 := Nat.pow_le_pow_right two_pos hb
    have hquot : F64.roundMag (x.units - mn.units).natAbs 1 ≤ 2 ^ 33 * S :=
      calc _ ≤ 2 * S * 2 ^ b := hmono.trans hle
        _ ≤ 2 * S * 2 ^ 32 := Nat.mul_le_mul_left _ hpow
        _ = 2 ^ 33 * S := by ring
    obtain ⟨m, hm⟩ := fdiv_of_le hpos hquot
    rw [← pcmStep, hS, F64.fsub_of_units_ne hx hmn hlt.ne', decide_eq_false (by omega),
      F64.round_of_lt (hmono.trans_lt hover), hm]
    exact ⟨rfl, F64.floor_fin_nonneg m⟩

/-- Settles O38: the greatest quotient is exactly `2^b`, which the clamp lowers by one, and the least is zero. -/
theorem pcmExtremesOfAnExactStep : Obligations.PcmExtremesOfAnExactStep := by
  intro b m mn mx hb hm hmn hdiff _
  have hpow : 2 ^ b ≤ 2 ^ 32 := Nat.pow_le_pow_right two_pos hb
  have hrep : F64.Representable (2 ^ b * F64.one) := F64.representable_mul_one (by omega)
  have hquot : F64.fdiv (F64.fsub mx mn) (.fin false m) = .fin false (2 ^ b * F64.one) := by
    rw [hdiff, F64.fdiv_fin hm, show m * 2 ^ b * F64.one = 2 ^ b * F64.one * m by ring]
    exact F64.round_of_representable hrep hm
  refine ⟨?_, ?_⟩
  · rw [pcmIndex, hquot, F64.floor_fin_mul_one, Int.toNat_natCast]
    exact min_eq_right (Nat.sub_le _ _)
  · obtain ⟨z, hz⟩ := F64.fsub_of_units_eq hmn hmn rfl
    exact pcmIndex_of_quotient_zero (by rw [hz]; exact F64.fdiv_zero_fin hm z false) b

end Sys2Proof.Machine
end

section
/-!
DM_ENCODE (spec/42_analog_modulate.md R77, R78; O41, O42). The prediction is always half an integer, and one of fewer
than 54 bits, so no addition rounds: each symbol moves it by exactly one half.
-/

namespace Sys2Proof.Machine

/-! ### Halves of integers -/

/-- `z * p` units as a binary64 value, for an integer `z`. -/
def F64.multiple (p : Nat) (z : Int) : F64 := .fin (decide (z < 0)) (z.natAbs * p)

theorem F64.halves_eq_multiple (z : Int) : F64.halves z = F64.multiple (2 ^ 1073) z := rfl

theorem F64.units_multiple (p : Nat) (z : Int) : (F64.multiple p z).units = z * p := by
  rw [F64.multiple, F64.units]
  rcases lt_or_ge z 0 with h | h
  · rw [decide_eq_true h, if_pos rfl, Nat.cast_mul, Int.ofNat_natAbs_of_nonpos h.le, Int.neg_mul, Int.neg_neg]
  · rw [decide_eq_false h.not_gt, if_neg Bool.false_ne_true, Nat.cast_mul, Int.natAbs_of_nonneg h]

/-- Multiples of one unit add exactly where the sum is representable. -/
theorem F64.fadd_multiple {p : Nat} (hp : 0 < p) {y z : Int} (h : Representable ((y + z).natAbs * p)) :
    F64.fadd (.multiple p y) (.multiple p z) = .multiple p (y + z) := by
  have hsum : (F64.multiple p y).units + (F64.multiple p z).units = (y + z) * p := by
    rw [units_multiple, units_multiple, add_mul]
  have hpos : (0 : Int) < p := by exact_mod_cast hp
  by_cases h0 : y + z = 0
  · have hsign : (decide (y < 0) && decide (z < 0)) = false := by
      rw [Bool.and_eq_false_iff, decide_eq_false_iff_not, decide_eq_false_iff_not]
      omega
    rw [h0, zero_mul] at hsum
    refine (if_pos hsum).trans ?_
    rw [hsign, h0, multiple, Int.natAbs_zero, Nat.zero_mul, decide_eq_false (by omega)]
  · have hneg : (y + z) * p < 0 ↔ y + z < 0 := by simpa using mul_lt_mul_iff_of_pos_right (b := y + z) (c := 0) hpos
    have hround := round_of_representable (n := decide (y + z < 0)) h one_pos
    rw [fadd_of_units_ne rfl rfl (by rw [hsum]; exact mul_ne_zero h0 hpos.ne'), hsum, Int.natAbs_mul,
      Int.natAbs_natCast, decide_eq_decide.2 hneg, multiple, ← hround, Nat.mul_one]

/-- A sum of halves of integers is exact while it has at most 53 bits (R77). -/
theorem F64.fadd_halves {y z : Int} (h : (y + z).natAbs < 2 ^ 53) :
    F64.fadd (.halves y) (.halves z) = .halves (y + z) := by
  rw [halves_eq_multiple, halves_eq_multiple, halves_eq_multiple]
  exact fadd_multiple (by positivity) (representable_mul_pow h (by norm_num))

theorem dmDelta_eq_halves : dmDelta = F64.halves 1 := by
  rw [dmDelta, F64.halves, Int.natAbs_one, Nat.one_mul, decide_eq_false (by decide)]

theorem neg_dmDelta_eq_halves : F64.neg dmDelta = F64.halves (-1) := by
  rw [dmDelta, F64.neg, F64.halves, Int.natAbs_neg, Int.natAbs_one, Nat.one_mul, decide_eq_true (by decide)]
  rfl

/-! ### The pass (R77) -/

/-- The symbol of a sample against the prediction `0.5 * z`. -/
def dmSymbol (z : Int) (x : F64) : Symbol := if F64.fgt x (.halves z) then .one else .zero

theorem dmSymbol_eq_one_iff (z : Int) (x : F64) : dmSymbol z x = .one ↔ F64.fgt x (.halves z) = true := by
  rw [dmSymbol]
  split <;> simp_all

/-- By how many halves a symbol moves the prediction (R78 item 2). -/
def dmMove : Symbol → Int
  | .one => 1
  | .zero => -1

/-- By how many halves the first `j` symbols move the prediction. -/
def dmDrift (ys : List Symbol) (j : Nat) : Int := 2 * onesBefore ys j - j

@[simp] theorem dmDrift_zero (ys : List Symbol) : dmDrift ys 0 = 0 := by simp [dmDrift]

theorem dmDrift_cons (y : Symbol) (ys : List Symbol) (j : Nat) :
    dmDrift (y :: ys) (j + 1) = dmMove y + dmDrift ys j := by
  cases y with
  | one => simp [dmDrift, onesBefore, dmMove]; omega
  | zero => simp [dmDrift, onesBefore, dmMove]; omega

/-- One sample of the pass: its symbol, then the rest from the moved prediction, which is exact. -/
theorem dmFrom_halves_cons {z : Int} (hz : z.natAbs + 1 < 2 ^ 53) (x : F64) (xs : List F64) :
    dmFrom (.halves z) (x :: xs) = dmSymbol z x :: dmFrom (.halves (z + dmMove (dmSymbol z x))) xs := by
  rw [dmFrom, dmSymbol]
  split
  · rw [dmDelta_eq_halves, F64.fadd_halves (by omega)]
    rfl
  · rw [F64.fsub, neg_dmDelta_eq_halves, F64.fadd_halves (by omega)]
    rfl

/-- Each symbol compares its sample with the prediction that the symbols before it have moved. -/
theorem dmFrom_halves_getElem? {z : Int} {xs : List F64} (hz : z.natAbs + xs.length < 2 ^ 53) {j : Nat} {x : F64}
    (hx : xs[j]? = some x) :
    (dmFrom (.halves z) xs)[j]? = some (dmSymbol (z + dmDrift (dmFrom (.halves z) xs) j) x) := by
  induction xs generalizing z j with
  | nil => cases hx
  | cons y ys ih =>
    rw [List.length_cons] at hz
    rw [dmFrom_halves_cons (by omega)]
    cases j with
    | zero =>
      obtain rfl : y = x := by simpa using hx
      simp
    | succ j =>
      have hmove : (dmMove (dmSymbol z y)).natAbs = 1 := by cases dmSymbol z y <;> rfl
      rw [dmDrift_cons, ← add_assoc]
      exact ih (by omega) hx

/-- The symbols of the whole pass; a length register's worth of samples keeps the predictions exact. -/
theorem dmSymbols_getElem? {xs : List F64} (hlen : xs.length < 2 ^ 32) {j : Nat} {x : F64} (hx : xs[j]? = some x) :
    (dmSymbols xs)[j]? = some (dmSymbol (dmDrift (dmSymbols xs) j) x) := by
  have hinit : F64.fin false 0 = F64.halves 0 := by
    rw [F64.halves, Int.natAbs_zero, Nat.zero_mul, decide_eq_false (by decide)]
  have h := dmFrom_halves_getElem? (z := 0) (by rw [Int.natAbs_zero]; omega) hx
  rwa [zero_add, ← hinit] at h

/-! ### The command (R77, R81) -/

theorem exec_dm (s : State) :
    exec .dm s = endCommand s ((dmInput s).map fun ws => s.putSymbols (dmSymbols (ws.map F64.ofBits))) := rfl

theorem exec_dm_of_holds {s : State} {ws : List (BitVec 64)} (hcap : s.smpLen.toNat ≤ s.cfg.sMax)
    (hout : s.smpLen.toNat ≤ s.cfg.nMax) (h : s.HoldsSamples ws) :
    exec .dm s = .next (s.putSymbols (dmSymbols (ws.map F64.ofBits))).complete := by
  rw [exec_dm, dmInput_eq_ok_iff.2 ⟨hcap, hout, State.holdsSamples_iff.1 h⟩]
  rfl

theorem dmInput_of_gt {s : State} (h : s.cfg.sMax < s.smpLen.toNat ∨ s.cfg.nMax < s.smpLen.toNat) :
    dmInput s = .error (.invalid .capacity) := if_pos h

theorem dmInput_of_undef {s : State} (hcap : s.smpLen.toNat ≤ s.cfg.sMax) (hout : s.smpLen.toNat ≤ s.cfg.nMax)
    (h : ∃ j, j < s.smpLen.toNat ∧ s.smp.read j = none) : dmInput s = .error (.fault .undefRead) := by
  rw [dmInput, if_neg (by omega), samples_eq_none h]

/-- Settles O41: the prediction of each symbol is half the drift of the symbols before it, exactly. -/
theorem dmEncodes : Obligations.DmEncodes := by
  intro s ws hws hcap hout
  have hlen := hws.1
  have hlt : ws.length < 2 ^ 32 := hlen ▸ s.smpLen.isLt
  have hnum : (dmSymbols (ws.map F64.ofBits)).length = ws.length := by rw [dmSymbols_length, List.length_map]
  refine ⟨_, dmSymbols (ws.map F64.ofBits), exec_dm_of_holds (hlen ▸ hcap) (hlen ▸ hout) hws, ?_, hnum,
    fun j y hy => putSymbols_read s hy, fun j w hj => ?_, fun a ha => putSymbols_read_above s (hnum ▸ ha), rfl⟩
  · exact (lengthWord_toNat (hnum ▸ hlt)).trans hnum
  · have hx : (ws.map F64.ofBits)[j]? = some (F64.ofBits w) := by rw [List.getElem?_map, hj, Option.map_some]
    rw [dmSymbols_getElem? (by rwa [List.length_map]) hx, Option.some_inj]
    exact dmSymbol_eq_one_iff _ _

/-- Settles O42: the input check answers CAPACITY or UNDEF_READ, and the pass itself cannot stop. -/
theorem dmStops : Obligations.DmStops := by
  refine fun s => ⟨fun h => ?_, fun hcap hout h => ?_, fun hcap hout hdef => ?_⟩
  · rw [exec_dm, dmInput_of_gt h]
    rfl
  · rw [exec_dm, dmInput_of_undef hcap hout h]
    rfl
  · obtain ⟨ws, hws⟩ : ∃ ws, s.smp.readFrom 0 s.smpLen.toNat = some ws := by
      refine Option.ne_none_iff_exists'.1 fun hnone => ?_
      obtain ⟨j, hj, hu⟩ := Memory.readFrom_eq_none_iff.1 hnone
      exact hdef j hj (by rwa [Nat.zero_add] at hu)
    exact ⟨_, exec_dm_of_holds hcap hout (State.holdsSamples_iff.2 hws), rfl, rfl, rfl⟩

end Sys2Proof.Machine
end

section
/-!
How commands and steps end. A command has three ends, each a next state (O43), and a host action always answers a
next state, with the parameters and the actions still to come as they were (O8). While BUSY every access but a
STATUS read is a fault (O16), and an access that keeps the host's duties meets no fault but UNDEF_READ (O47).
-/

namespace Sys2Proof.Machine

/-! ### The ends of a command (R82, R83, R85) -/

/-- The outputs of a command say nothing of FAULT. -/
theorem commandResult_ok_fault {i : Instr} {s t : State} (h : commandResult i s = .ok t) : t.fault = s.fault := by
  obtain ⟨-, p, rfl, -⟩ | ⟨-, p, rfl, -⟩ | ⟨-, y, rfl, -⟩ := commandResult_ok_cases h <;> rfl

/-- Settles O43: the three ends of a command; the codes of R80 are not NONE, and a command's only model fault is
UNDEF_READ. -/
theorem commandsEndInOneWay : Obligations.CommandsEndInOneWay := by
  intro i s
  obtain ⟨t, ht, hn⟩ | ⟨c, -, hn⟩ | ⟨f, hf, hn⟩ := exec_cases i s
  · exact .inr (.inl ⟨_, hn, rfl, rfl, t.complete_fault.trans (commandResult_ok_fault ht)⟩)
  · exact .inl ⟨c, c.code_range.1, hn⟩
  · obtain rfl := commandResult_fault hf
    exact .inr (.inr hn)

/-! ### Every step answers (R79, R98) -/

/-- No host action changes the list of those still to come. -/
theorem HostEffect.host_eq {s t : State} (h : HostEffect s t) : t.host = s.host := by
  cases h with
  | command w i t _ he =>
    obtain ⟨-, -, -, -, -, hhost, -⟩ := exec_keeps_inputs he
    exact hhost
  | _ => rfl

/-- Settles O8: with no action left the state stays, and the effect of an action writes neither the parameters nor
the host's list, from which the step has taken it. -/
theorem everyStepAnswers : Obligations.EveryStepAnswers := by
  intro s hf
  cases hh : s.host with
  | nil => exact ⟨s, by simp only [step, hf, hh], rfl, hh⟩
  | cons a rest =>
    obtain ⟨t, ht, he⟩ := hostAct_effect a { s with host := rest }
    exact ⟨t, (step_action hf hh).trans ht, he.cfg_eq, he.host_eq⟩

/-! ### While BUSY (R100) -/

theorem HostAction.allowedBusy_iff {a : HostAction} : a.allowedBusy = true ↔ a = .rd 1 ∨ a = .reset := by
  cases a <;> simp [HostAction.allowedBusy]

section Busy

variable {s : State} {a : HostAction} {rest : List HostAction} (hf : s.fault = none) (hh : s.host = a :: rest)
include hf hh

theorem step_busy_of_not_allowed (hb : s.status = stateBusy) (ha : a.allowedBusy = false) :
    step s = .next { s with host := rest, fault := some .busyAccess } :=
  (step_action hf hh).trans (if_pos ⟨hb, ha⟩)

/-- An action that BUSY does not stop is carried out in any state. -/
theorem step_of_allowedBusy (ha : a.allowedBusy = true) : step s = hostAccess a { s with host := rest } := by
  rw [step_action hf hh, hostAct, if_neg (by simp [ha])]

end Busy

/-- Settles O16: R100 allows the STATUS read and the reset alone, and those are carried out as in any state. -/
theorem busyAccessFaults : Obligations.BusyAccessFaults := by
  intro s a rest hf hb hh
  refine ⟨fun hrd hreset => step_busy_of_not_allowed hf hh hb ?_, ?_, ?_⟩
  · exact Bool.eq_false_iff.2 fun ha => (HostAction.allowedBusy_iff.1 ha).elim hrd hreset
  · rintro rfl
    have hword : State.statusWord { s with host := rest } = 1#32 := congrArg (BitVec.setWidth 32) hb
    rw [step_of_allowedBusy hf hh rfl, ← hword]
    rfl
  · rintro rfl
    exact ⟨_, step_of_allowedBusy hf hh rfl, State.resetBlock_atReset _, rfl⟩

/-! ### A host that keeps its duties (R85, R99) -/

/-- A next state with no model fault recorded, or with UNDEF_READ. -/
def OnlyUndefRead (o : Host.Outcome State Fault Refusal) : Prop :=
  ∃ t, o = .next t ∧ (t.fault = none ∨ t.fault = some .undefRead)

theorem State.registerWord_of_lt {n : Nat} (hn : n < 7) (s : State) : ∃ v, s.registerWord n = some v := by
  obtain rfl | rfl | rfl | rfl | rfl | rfl | rfl :
    n = 0 ∨ n = 1 ∨ n = 2 ∨ n = 3 ∨ n = 4 ∨ n = 5 ∨ n = 6 := by omega
  all_goals exact ⟨_, rfl⟩

section Dutiful

variable {s : State} (hf : s.fault = none)
include hf

theorem exec_onlyUndefRead (i : Instr) : OnlyUndefRead (exec i s) := by
  obtain ⟨c, -, hn⟩ | ⟨t, hn, -, -, hfault⟩ | hn := commandsEndInOneWay i s
  · exact ⟨_, hn, .inl hf⟩
  · exact ⟨t, hn, .inl (hfault.trans hf)⟩
  · exact ⟨_, hn, .inr rfl⟩

theorem writeCmd_onlyUndefRead (w : Word) : OnlyUndefRead (writeCmd w s) := by
  rw [writeCmd]
  split
  · exact exec_onlyUndefRead (s := { s with cmd := w }) hf _
  · exact ⟨_, rfl, .inl hf⟩

/-- Of the mapped registers 0 runs a command, 1 and 2 are read-only, and 3 to 6 take the word. -/
theorem writeRegister_onlyUndefRead {n : Nat} (hn : n < 7) (h1 : n ≠ 1) (h2 : n ≠ 2) (v : Word) :
    OnlyUndefRead (writeRegister n v s) := by
  obtain rfl | rfl | rfl | rfl | rfl : n = 0 ∨ n = 3 ∨ n = 4 ∨ n = 5 ∨ n = 6 := by omega
  · exact writeCmd_onlyUndefRead hf v
  all_goals exact ⟨_, rfl, .inl hf⟩

theorem readRegister_onlyUndefRead {n : Nat} (hn : n < 7) : OnlyUndefRead (readRegister n s) := by
  obtain ⟨v, hv⟩ := State.registerWord_of_lt hn s
  rw [readRegister, hv]
  exact ⟨_, rfl, .inl hf⟩

theorem readElement_onlyUndefRead {w cap i : Nat} (hi : i < cap) (m : Memory w) (as : BitVec w → HostReply) :
    OnlyUndefRead (readElement cap m i as s) := by
  cases hm : m.read i with
  | none => exact ⟨_, readElement_of_read_eq_none as s hi hm, .inr rfl⟩
  | some v => exact ⟨_, readElement_of_read_eq_some as s hi hm, .inl hf⟩

/-- An access that keeps the duties of R99 is within range, so that only what is UNDEF can fault. -/
theorem hostAccess_onlyUndefRead {a : HostAction} (ha : a.wf s.cfg = true) : OnlyUndefRead (hostAccess a s) := by
  cases a with
  | cmd w => exact writeCmd_onlyUndefRead hf w
  | wr n v =>
    simp only [HostAction.wf, Bool.and_eq_true, decide_eq_true_eq] at ha
    obtain ⟨⟨hn, h1⟩, h2⟩ := ha
    exact writeRegister_onlyUndefRead hf hn h1 h2 v
  | rd n => exact readRegister_onlyUndefRead hf (of_decide_eq_true ha)
  | stSym i b => exact ⟨_, writeElement_of_lt (of_decide_eq_true ha) _ _, .inl hf⟩
  | stPul i c => exact ⟨_, writeElement_of_lt (of_decide_eq_true ha) _ _, .inl hf⟩
  | stSmp i x => exact ⟨_, writeElement_of_lt (of_decide_eq_true ha) _ _, .inl hf⟩
  | ldSym i => exact readElement_onlyUndefRead hf (of_decide_eq_true ha) _ _
  | ldPul i => exact readElement_onlyUndefRead hf (of_decide_eq_true ha) _ _
  | ldSmp i => exact readElement_onlyUndefRead hf (of_decide_eq_true ha) _ _
  | reset => exact ⟨_, rfl, .inl rfl⟩

end Dutiful

/-- Settles O47: the invariant keeps STATE from being BUSY, so the step is the access, which keeps the duties. -/
theorem dutifulHostSeesOnlyUndefRead : Obligations.DutifulHostSeesOnlyUndefRead := by
  intro s a rest hinv hf hh ha
  rw [step_access hf hinv.not_busy hh]
  exact hostAccess_onlyUndefRead (s := { s with host := rest }) hf ha

end Sys2Proof.Machine
end

section
/-!
Reset and hazards (spec/70_reset_and_hazards.md): the step on a CMD write of a legal word (O5), the step with no host
action left (O7), the first CMD write after reset (O10), and `enc.ami` before a SCRAMBLE (R101, O32).
-/

namespace Sys2Proof.Machine

/-! ### AMI before SCRAMBLE (R101) -/

/-- Settles O32: `enc.ami` leaves the symbols as they are and puts their AMI train in PUL, and 32 bits hold its
length, since SYM_LEN is the same. -/
theorem amiPreparesScramble : Obligations.AmiPreparesScramble := by
  intro s xs h
  obtain ⟨t, hexec, hlen, hslot, -, hframe⟩ := lineEncode_completes encAmi h
  have hready : t.LineReady xs := by rw [hframe]; exact h
  have hshort : (encAmi xs).length < 2 ^ 32 := by rw [encAmi_length]; exact h.length_lt
  exact ⟨t, hexec, ⟨hready, hlen hshort, hslot⟩, by rw [hframe]⟩

/-! ### The step on a legal word (R98) -/

theorem writeCmd_legal {w : Word} {i : Instr} (hd : decode w = .ok i) (s : State) :
    writeCmd w s = exec i { s with cmd := w } := by
  rw [writeCmd, hd]

section LegalWord

variable {s : State} {w : Word} {i : Instr} {rest : List HostAction} (hf : s.fault = none)
  (hb : s.status ≠ stateBusy) (hd : decode w = .ok i)
include hf hb hd

theorem step_cmd_legal (hh : s.host = .cmd w :: rest) : step s = exec i { s with cmd := w, host := rest } :=
  (step_access hf hb hh).trans (writeCmd_legal hd _)

/-- A write of register 0 is a write to CMD (R60). -/
theorem step_wr_cmd_legal (hh : s.host = .wr 0 w :: rest) : step s = exec i { s with cmd := w, host := rest } :=
  (step_access hf hb hh).trans (writeCmd_legal hd _)

end LegalWord

/-- A word of the full register width is taken as it stands. -/
theorem tableWord_toNat (w : Word) : tableWord 32 w.toNat = w := by
  rw [tableWord, Nat.mod_eq_of_lt w.isLt, BitVec.ofNat_toNat, BitVec.setWidth_eq]

/-- Settles O5: the three ways in which the word comes to CMD are one access, which decodes it and runs `i`. -/
theorem stepRunsTheWrittenCommand : Obligations.StepRunsTheWrittenCommand := by
  intro s w i rest hf hb hd
  refine ⟨step_cmd_legal hf hb hd, step_wr_cmd_legal hf hb hd, ?_⟩
  exact step_cmd_legal (s := s.withFetchWord 32 w.toNat) hf hb hd (by rw [State.withFetchWord_host, tableWord_toNat])

/-! ### A block that waits (R96) -/

/-- Settles O7: `step` finds no fault, then no host action. -/
theorem endedRunStays : Obligations.EndedRunStays := by
  intro s hf hh
  simp only [step, hf, hh]

/-! ### The first command after reset (R96) -/

/-- With no symbols and no samples every command but `dm` ends in EMPTY_INPUT: no earlier check of R81 fails. -/
theorem exec_of_no_input {s : State} {i : Instr} (hi : i ≠ .dm) (hsym : s.symLen.toNat = 0)
    (hpul : s.pulLen.toNat ≤ s.cfg.pMax) (hsmp : s.smpLen.toNat = 0) :
    exec i s = .next (s.raiseInvalid .emptyInput) := by
  cases i with
  | encNrzl | encNrzi | encMan | encDman | encAmi =>
    exact exec_of_lineInput_eq_error (by decide) (lineInput_of_eq_zero hsym)
  | scrB8zs | scrHdb3 => exact exec_of_scrambleInput_eq_error (by decide) (scrambleInput_of_eq_zero hpul hsym)
  | pcm => exact exec_pcm_of_input_error (pcmInput_of_eq_zero hsmp)
  | dm => exact absurd rfl hi

/-- With no samples `dm` completes with no symbols (R77). -/
theorem exec_dm_of_no_samples {s : State} (hsmp : s.smpLen.toNat = 0) :
    exec .dm s = .next (s.putSymbols []).complete :=
  exec_dm_of_holds (ws := []) (hsmp ▸ Nat.zero_le _) (hsmp ▸ Nat.zero_le _) ⟨hsmp, by simp⟩

/-- Settles O10: the reset state is not BUSY, so the word is decoded, and its length registers are all zero. -/
theorem firstCommandAfterReset : Obligations.FirstCommandAfterReset := by
  intro c hc
  have hb (program : List HostAction) : (State.loaded c program).status ≠ stateBusy :=
    (invariantAtReset.2 c program hc).not_busy
  refine ⟨step_cmd_illegal (w := 0x00000000#32) (e := .badOpcode) rfl (hb _) rfl rfl, fun i hi => ?_, ?_⟩
  · exact (step_cmd_legal rfl (hb _) (decode_encode i) rfl).trans (exec_of_no_input hi rfl (Nat.zero_le _) rfl)
  · exact (step_cmd_legal rfl (hb _) (decode_encode .dm) rfl).trans (exec_dm_of_no_samples rfl)

end Sys2Proof.Machine
end
